-- ==== Sys2Proof/Word.lean ====
section
/-! DEFINITION. The plainest types of the model: a memory cell with its address, and source text.
Values are mathematical integers and every stored value is a natural number (spec/00_scope.md R15). -/

namespace Sys2Proof

/-- One listed memory cell: its address and its value. A cell is MEMW bits wide, MEMW a parameter of the configuration, and
"never means eight bits" (spec/90_conflicts.md C8; R18, R41), so the value is a natural number and its range an invariant
(R21). This is `Host.Cell` for a cell of any width (log entry 3). -/
abbrev Cell := Nat × Nat

/-- Source text of the assembler, character by character (R71). -/
abbrev Text := List Char

end Sys2Proof
end

