-- ==== Sys2Proof/Config.lean ====
section
/-! DEFINITION. The configuration of the engine (spec/00_scope.md R6 to R14) as plain data, and the values the spec leaves
open. What the configuration holds that acts on the state (effects, custom phases, peripherals) is in Machine/Engine.lean. -/

namespace Sys2Proof

/-- R10: what an Instruction holds besides its effect. The effect is `Engine.tableEffect` or
`Engine.resolverEffect`, keyed by the opcode (log entry 8). -/
structure InstructionHeader where
  /-- text, no semantics (R10, R70) -/
  description : String
  /-- "number of memory cells, including itself, the instruction occupies"; at least 1 in a well-formed configuration -/
  ipIncrement : Nat
  /-- "unique short name used by the assembler" -/
  mnemonic : Option String
  deriving DecidableEq, Repr

/-- R14: UNRESOLVED_EXECUTE, what the `execute` phase does when no Instruction resolves. -/
inductive UnresolvedExecute where
  /-- normative, the default: the machine halts -/
  | halt
  /-- the other "encountered engine variant": nothing happens -/
  | nop
  deriving DecidableEq, Repr

/-- R6 to R12, R14: the parameters that are plain data. That the names of IP and IS are register names (R9) is part of the type:
a configuration in which they are not cannot be written down (log entry 4). -/
structure Config where
  /-- MEMW (R6) -/
  memoryBitWidth : Nat
  /-- REGW (R7) -/
  registerBitWidth : Nat
  /-- N (R8) -/
  numMemoryAddresses : Nat
  /-- the register names, in the order `bulkLoadRegisters` uses (R9) -/
  registerNames : List String
  /-- the instruction pointer's name, "IP" when absent (R9) -/
  instructionPointerRegister : Option String := none
  /-- the instruction register's name, "IS" when absent (R9) -/
  instructionRegister : Option String := none
  /-- R9, D5: the instruction pointer is one of the registers -/
  ipMember : instructionPointerRegister.getD "IP" ∈ registerNames := by decide
  /-- R9, D5: the instruction register is one of the registers -/
  isMember : instructionRegister.getD "IS" ∈ registerNames := by decide
  /-- the finite partial map from opcode to Instruction (R10) -/
  instructionTable : List (Nat × InstructionHeader)
  /-- a pure total function of the opcode alone, when present (R11) -/
  undocumentedOpcodeResolver : Option (Nat → Option InstructionHeader) := none
  /-- R14 -/
  unresolvedExecute : UnresolvedExecute := .halt

/-- R9: the name of the instruction pointer, by default "IP". -/
def Config.ipName (c : Config) : String :=
  c.instructionPointerRegister.getD "IP"

/-- R9: the name of the instruction register, by default "IS". -/
def Config.isName (c : Config) : String :=
  c.instructionRegister.getD "IS"

/-- R24: the register names of a configuration as a finite type, each name by its position in `registerNames` (log entry 4). -/
abbrev Register (c : Config) : Type :=
  Fin c.registerNames.length

/-- R88: LINE_BASE and COL_BASE, each 0 or 1, left open by the spec (D28): an argument of the source map. -/
structure Bases where
  /-- LINE_BASE -/
  line : Fin 2
  /-- COL_BASE -/
  col : Fin 2
  deriving DecidableEq, Repr

/-- D35, OPEN: whether a character outside ASCII is white space. FREE VALUE (log entry 13). -/
opaque Config.unicodeSpace : Char → Bool

/-- D25, OPEN: the character code of a character that is not one UTF-16 code unit. FREE VALUE (log entry 13). -/
opaque Config.astralCode : Char → Nat

end Sys2Proof
end

