-- ==== Sys2Proof/Syntax.lean ====
section
/-! DEFINITION. The instructions of REF8, one constructor per row of spec/opcode_table.json, in the table's order
(spec/43_reference_table.md R150 to R161). A two-cell instruction (format F2, R63) carries the value of its operand cell. -/

namespace Sys2Proof

/-- The eleven instructions of REF8. -/
inductive Instr where
  /-- R151, opcode 0, F1 -/
  | halt
  /-- R152, opcode 1, F1 -/
  | nop
  /-- R153, opcode 17, F2: an immediate -/
  | ldr0 (imm : Nat)
  /-- R154, opcode 18, F2: an immediate -/
  | ldr1 (imm : Nat)
  /-- R155, opcode 19, F2: an absolute address -/
  | load (addr : Nat)
  /-- R156, opcode 20, F2: an absolute address -/
  | store (addr : Nat)
  /-- R157, opcode 21, F1 -/
  | add
  /-- R158, opcode 22, F1 -/
  | sub
  /-- R159, opcode 23, F1 -/
  | swap
  /-- R160, opcode 33, F2: an absolute target address -/
  | jmp (target : Nat)
  /-- R161, opcode 34, F2: an absolute target address -/
  | jz (target : Nat)
  deriving DecidableEq, Repr

/-- The operand cell's value, for the two-cell instructions (R64). -/
def Instr.operand? : Instr → Option Nat
  | .halt => none
  | .nop => none
  | .ldr0 imm => some imm
  | .ldr1 imm => some imm
  | .load addr => some addr
  | .store addr => some addr
  | .add => none
  | .sub => none
  | .swap => none
  | .jmp target => some target
  | .jz target => some target

end Sys2Proof
end

