-- ==== Sys2Proof/WellFormed.lean ====
section
/-! DEFINITION. When an instruction of REF8 is well formed (its operand is the value of a cell) and when the plain-data part
of a configuration is (spec/00_scope.md R13). -/

namespace Sys2Proof

/-- R64: an operand is a whole cell, an integer in `[0, 2^MEMW)`; REF8 has MEMW = 8 (R150). -/
def Instr.wellFormed (i : Instr) : Bool :=
  i.operand?.all (· < 256)

/-- R71: "the mnemonic to opcode projection" of the table: every entry that has a mnemonic. -/
def Config.mnemonics (c : Config) : List (Text × Nat) :=
  c.instructionTable.filterMap fun (op, h) => h.mnemonic.map fun m => (m.toList, op)

/-- R13, the finite part: widths and N at least 1, distinct register names, IP and IS different, distinct keys, every
`ipIncrement` at least 1, distinct mnemonics. That IP and IS are members is in the type `Config`; the rest of R13 is
`Engine.WellFormed`. -/
def Config.wellFormed (c : Config) : Bool :=
  1 ≤ c.memoryBitWidth && 1 ≤ c.registerBitWidth && 1 ≤ c.numMemoryAddresses
    && decide c.registerNames.Nodup
    && c.ipName != c.isName
    && decide (c.instructionTable.map Prod.fst).Nodup
    && c.instructionTable.all (fun e => 1 ≤ e.2.ipIncrement)
    && decide (c.mnemonics.map Prod.fst).Nodup

end Sys2Proof
end

