-- ==== Sys2Proof/Decode.lean ====
section
/-! DEFINITION. Decoding: the instruction-table lookup of the engine (spec/30_encoding.md R65 to R70), the opcode rows of
REF8 (spec/43_reference_table.md R150), the decoder from cells to `Instr`, and the encoder. -/

namespace Sys2Proof

/-- R65, the one resolution function every decode goes through (R66): the table first, then the resolver, then nothing. -/
def lookup (c : Config) (op : Nat) : Option InstructionHeader :=
  match c.instructionTable.lookup op with
  | some h => some h
  | none => match c.undocumentedOpcodeResolver with
    | some resolve => resolve op
    | none => none

/-- R67: a dense ordered sequence is the map with keys 0, 1, ... -/
def denseTable (hs : List InstructionHeader) : List (Nat × InstructionHeader) :=
  hs.zipIdx.map fun (h, i) => (i, h)

/-- R150 to R161: opcode, length and mnemonic of the eleven instructions of REF8, in the order of spec/opcode_table.json. -/
def opcodeRows : List (Nat × InstructionHeader) :=
  [(0, ⟨"halt", 1, some "HALT"⟩),
   (1, ⟨"nothing", 1, some "NOP"⟩),
   (17, ⟨"R0 from operand", 2, some "LDR0"⟩),
   (18, ⟨"R1 from operand", 2, some "LDR1"⟩),
   (19, ⟨"R0 from the cell at operand", 2, some "LOAD"⟩),
   (20, ⟨"the cell at operand from R0", 2, some "STORE"⟩),
   (21, ⟨"R0 plus R1 into R0", 1, some "ADD"⟩),
   (22, ⟨"R0 minus R1 into R0", 1, some "SUB"⟩),
   (23, ⟨"exchange R0 and R1", 1, some "SWAP"⟩),
   (33, ⟨"IP from operand", 2, some "JMP"⟩),
   (34, ⟨"IP from operand if R0 is 0", 2, some "JZ"⟩)]

/-- The instruction with opcode `op` and operand `arg` (not looked at for format F1). -/
def instrOf (op arg : Nat) : Option Instr :=
  match op with
  | 0 => some .halt
  | 1 => some .nop
  | 17 => some (.ldr0 arg)
  | 18 => some (.ldr1 arg)
  | 19 => some (.load arg)
  | 20 => some (.store arg)
  | 21 => some .add
  | 22 => some .sub
  | 23 => some .swap
  | 33 => some (.jmp arg)
  | 34 => some (.jz arg)
  | _ => none

/-- Why a list of cells is no instruction. -/
inductive Reject where
  /-- there is no opcode cell -/
  | noCells
  /-- the value is outside `[0, 2^MEMW)`, so no cell holds it (R64) -/
  | notACell (value : Nat)
  /-- R68: the opcode is unresolved -/
  | unresolvedOpcode (op : Nat)
  /-- the instruction has two cells and only one is given -/
  | missingOperand (op : Nat)
  /-- more instructions stand there than were asked for -/
  | moreInstructions
  deriving DecidableEq, Repr

/-- R60 to R64: the instruction that stands at the front of a list of cells, and the cells after it. Total; rejects by name. -/
def decode : List Nat → Except Reject (Instr × List Nat)
  | [] => .error .noCells
  | op :: rest =>
    if 256 ≤ op then .error (.notACell op)
    else match opcodeRows.lookup op with
      | none => .error (.unresolvedOpcode op)
      | some h =>
        if h.ipIncrement = 1 then
          match instrOf op 0 with
          | some i => .ok (i, rest)
          | none => .error (.unresolvedOpcode op)
        else match rest with
          | [] => .error (.missingOperand op)
          | arg :: rest' =>
            if 256 ≤ arg then .error (.notACell arg)
            else match instrOf op arg with
              | some i => .ok (i, rest')
              | none => .error (.unresolvedOpcode op)

/-- R62: walking a list of cells from an instruction boundary to the next, at most `fuel` instructions. -/
def decodeAll : Nat → List Nat → Except Reject (List Instr)
  | _, [] => .ok []
  | 0, _ :: _ => .error .moreInstructions
  | fuel + 1, op :: rest =>
    match decode (op :: rest) with
    | .error r => .error r
    | .ok (i, rest') => (decodeAll fuel rest').map (i :: ·)

/-- What the host asks of the decoder: the instruction whose bits are the low `nbits` bits of `w`, laid out in cells of
MEMW = 8 bits, the first cell the low one, up to the longest instruction (two cells). -/
def decodeTableWord (nbits w : Nat) : Option Instr :=
  let v := w % 2 ^ nbits
  match decode [v % 256, v / 256 % 256] with
  | .ok (i, _) => some i
  | .error _ => none

/-- The opcode of an instruction, from the table of R150. -/
def opcodeOf : Instr → Nat
  | .halt => 0
  | .nop => 1
  | .ldr0 _ => 17
  | .ldr1 _ => 18
  | .load _ => 19
  | .store _ => 20
  | .add => 21
  | .sub => 22
  | .swap => 23
  | .jmp _ => 33
  | .jz _ => 34

/-- R63: the cells of an instruction, the opcode cell and then the operand cell where it has one. -/
def encode (i : Instr) : List Nat :=
  match i.operand? with
  | none => [opcodeOf i]
  | some arg => [opcodeOf i, arg]

end Sys2Proof
end

