-- ==== Sys2Proof/Machine/Arith.lean ====
section
/-! DEFINITION. The arithmetic constraints, all the arithmetic the engine itself performs
(spec/40_arithmetic_constraints.md R100 to R107). Total over all integers. -/

namespace Sys2Proof.Machine

/-- R100: `v mod 2^w`, the low `w` bits of `v`, negative `v` included (D1). -/
def constrainRegisterValue (w : Nat) (v : Int) : Nat :=
  (v % (2 : Int) ^ w).toNat

/-- R101: "the same function ... under another name", called with the width of a cell. -/
def constrainMemoryValue (w : Nat) (v : Int) : Nat :=
  (v % (2 : Int) ^ w).toNat

/-- R102, R103: the non-negative remainder `v mod n`. -/
def constrainAddress (n : Nat) (v : Int) : Nat :=
  (v % (n : Int)).toNat

/-- R107: what a write to IP stores: the mask first and the wrap second (D4). -/
def wrapIP (c : Config) (v : Int) : Nat :=
  constrainAddress c.numMemoryAddresses (constrainRegisterValue c.registerBitWidth v)

end Sys2Proof.Machine
end

