-- ==== Sys2Proof/Machine/State.lean ====
section
/-! DEFINITION. The machine state: exactly the six components of spec/10_state.md (R20, R22, R28 to R30, R32), as plain data;
the faults, the refusals; the state after reset of REF8. -/

namespace Sys2Proof.Machine

/-- R20: a memory, as the list of its cells that are not 0, addresses strictly rising (`Memory.wf`). A cell that is not
listed holds 0, its value after `newState` (R33). -/
abbrev Memory := List Cell

/-- The mutable snapshot of the machine, "exactly six components" (spec/10_state.md). The ranges R21, R24, R25 and R29 give
them are invariants relative to a configuration (`Inv`), as the spec has them (R34). `P` is the type of `periph`, "fixed by the
configuration" (R32): `State` alone is the state of a machine without peripherals, REF8 among them, with the one-element type. -/
structure State (P : Type := Unit) where
  /-- R20: one memory, instructions and data -/
  memory : Memory
  /-- R22: the registers' values, in the order of `registerNames` -/
  registers : List Nat
  /-- R32: the peripherals' slots, a value of the type that the configuration fixes -/
  periph : P
  /-- R28: the only flag -/
  isHalted : Bool
  /-- R29: the index of the phase the next `step` runs -/
  pipelineStep : Nat
  /-- R30: completed pipeline cycles, unbounded -/
  executionStep : Nat
  deriving DecidableEq, Repr

/-- R170: "The engine raises no synchronous exception of any kind." There is no constructor, so no step can fault. Safe:
nothing is left out, the only abnormal event is the halt, which is a next state (R171; log entry 6). -/
inductive Fault
  deriving DecidableEq, Repr

/-- R17: where the spec gives a request no meaning. "A refusal is never a behaviour of the engine"; all are safe. -/
inductive Refusal where
  /-- an instruction without a meaning yet; raised by no arm of this model -/
  | notModelled (mnemonic : String)
  /-- R116, D12, U4: `getArgument` while no instruction resolves for IS; raised by `answer` and by `ref8Effect`, which
  `execute` never runs in such a state; safe -/
  | argumentUnresolved
  /-- the effect of an opcode that the engine's effects do not know; raised by `ref8Effect` outside the eleven keys, by the effect
  of `bareEngine` and by `resolverEffect` without a resolver, none of which `execute` asks for; safe -/
  | noEffect
  /-- I4 of R34 is broken: `pipelineStep` is no index of the pipeline; raised by `engineStep`; reached by no run; safe -/
  | pipelineStepOutOfRange
  /-- R13, U8: the configuration is ill formed; raised by `newState`, `resetState`, `boot`, `transact`, `run`
  and `assembleFor`; safe -/
  | illFormedConfiguration
  /-- R194, D14, U6: more values than cells; raised by `bulkLoadMemory`; safe -/
  | tooManyMemoryValues
  /-- R195, D15, U7: a value out of its range, or more values than registers; raised by `bulkLoadRegisters`; safe -/
  | registerValuesOutOfDuty
  /-- R24, U3: no register of that name; raised by `transact`; safe -/
  | unknownRegister
  /-- R119, U9: the configuration has no such peripheral operation; raised by `peripheralDo`; safe -/
  | noSuchPeripheralOperation
  /-- R182, D33, U10: an effect, custom phase or peripheral operation failed; raised by no definition of this model, the name
  a configuration's own failing code answers with; safe -/
  | effectFailed
  deriving DecidableEq, Repr

/-- What a transition of the machine answers. -/
abbrev Result (P : Type := Unit) := Host.Outcome (State P) Fault Refusal

/-- R33, R190 for REF8: memory all 0, IP, IS, R0 and R1 0, no peripherals, not halted, both counters 0. -/
def State.reset : State where
  memory := []
  registers := [0, 0, 0, 0]
  periph := ()
  isHalted := false
  pipelineStep := 0
  executionStep := 0

end Sys2Proof.Machine
end

