-- ==== Sys2Proof/Machine/Flags.lean ====
section
/-! DEFINITION. The flags. The engine has one, `isHalted` (spec/10_state.md R28): "no carry, zero, sign, overflow or
comparison flag exists in the engine", so no instruction computes one. -/

namespace Sys2Proof.Machine

variable {P : Type}

/-- R118: a plain write of the flag; it does not abort the effect that makes it (D30). -/
def setHalt (s : State P) : State P :=
  { s with isHalted := true }

/-- R141: the two states of the machine, `Running` and `Halted`. -/
def isRunning (s : State P) : Bool :=
  !s.isHalted

end Sys2Proof.Machine
end

