-- ==== Sys2Proof/Machine/Registers.lean ====
section
/-! DEFINITION. The registers of a configuration: which ones IP and IS are, and the register a name stands for
(spec/00_scope.md R9, spec/10_state.md R22, R24). -/

namespace Sys2Proof

/-- R25: the register that is the instruction pointer. -/
def Config.ip (c : Config) : Register c :=
  ⟨c.registerNames.idxOf c.ipName, List.idxOf_lt_length_of_mem c.ipMember⟩

/-- R27: the register that is the instruction register. -/
def Config.is (c : Config) : Register c :=
  ⟨c.registerNames.idxOf c.isName, List.idxOf_lt_length_of_mem c.isMember⟩

/-- R22: the register of a name; none when the configuration has no such register (U3). -/
def registerNamed (c : Config) (name : String) : Option (Register c) :=
  if h : name ∈ c.registerNames then some ⟨c.registerNames.idxOf name, List.idxOf_lt_length_of_mem h⟩ else none

end Sys2Proof
end

