-- ==== Sys2Proof/Machine/Ops.lean ====
section
/-! DEFINITION. The named operations over memory, registers and the pipeline position (spec/41_state_operations.md), and the
one abnormal event, the halt on an unresolved opcode (spec/60_exceptions.md R171, R175). -/

namespace Sys2Proof.Machine

variable {P : Type}

/-- The cell at an address; a cell that is not listed holds 0 (R33). -/
def Memory.read : Memory → Nat → Nat
  | [], _ => 0
  | (b, v) :: m, a => if a = b then v else Memory.read m a

/-- The memory with nothing listed at an address. -/
def Memory.erase (m : Memory) (a : Nat) : Memory :=
  m.filter fun p => p.1 != a

/-- The memory with one more cell listed, in its place by address. -/
def Memory.insert : Memory → Nat → Nat → Memory
  | [], a, v => [(a, v)]
  | (b, x) :: m, a, v => if a < b then (a, v) :: (b, x) :: m else (b, x) :: Memory.insert m a v

/-- One cell written; writing 0, what an unlisted cell reads as, removes the entry. -/
def Memory.write (m : Memory) (a v : Nat) : Memory :=
  if v = 0 then Memory.erase m a else Memory.insert (Memory.erase m a) a v

/-- The canonical form from address `lo` on: addresses strictly rising and below `n`, values not 0 and below `2^w`. -/
def Memory.wfFrom (n w : Nat) : Nat → Memory → Bool
  | _, [] => true
  | lo, (a, v) :: m => decide (lo ≤ a) && decide (a < n) && decide (v ≠ 0) && decide (v < 2 ^ w) && Memory.wfFrom n w (a + 1) m

/-- R20, R21: a memory of `n` cells of `w` bits, in its one canonical form. -/
def Memory.wf (n w : Nat) (m : Memory) : Bool :=
  Memory.wfFrom n w 0 m

/-- A memory with one more cell below all that it lists. -/
def Memory.below (a v : Nat) (m : Memory) : Memory :=
  if v = 0 then m else (a, v) :: m

/-- The canonical memory whose cells from address `a` on are the masked values of a list (R193). -/
def Memory.ofValues (w : Nat) : Nat → List Int → Memory
  | _, [] => []
  | a, v :: vs => Memory.below a (constrainMemoryValue w v) (Memory.ofValues w (a + 1) vs)

/-- R110: direct lookup. A name outside `registerNames` cannot be written down (R24). DESIGN CHOICE: in a state that holds fewer
registers than the configuration names, which I6 of R34 excludes, a missing register reads 0 (log entry 32). -/
def getRegister (c : Config) (r : Register c) (s : State P) : Nat :=
  s.registers.getD r.val 0

/-- R111: the value masked to REGW, for IP then wrapped modulo N. DESIGN CHOICE: in a state that holds fewer registers than the
configuration names, which I6 of R34 excludes, a write to a missing register changes nothing (log entry 32). -/
def setRegister (c : Config) (r : Register c) (v : Int) (s : State P) : State P :=
  let t := constrainRegisterValue c.registerBitWidth v
  { s with registers := s.registers.set r.val (if r = c.ip then constrainAddress c.numMemoryAddresses t else t) }

/-- R112: the cell at `a mod N`, for any integer `a`. -/
def getMemory (c : Config) (a : Int) (s : State P) : Nat :=
  Memory.read s.memory (constrainAddress c.numMemoryAddresses a)

/-- R113: the cell at `a mod N` takes `v mod 2^MEMW`. -/
def setMemory (c : Config) (a v : Int) (s : State P) : State P :=
  { s with
    memory := Memory.write s.memory (constrainAddress c.numMemoryAddresses a) (constrainMemoryValue c.memoryBitWidth v) }

/-- R117: one phase on, modulo the pipeline's length; a return to 0 counts a cycle. -/
def advancePipeline (len : Nat) (s : State P) : State P :=
  let p := (s.pipelineStep + 1) % len
  { s with
    pipelineStep := p
    executionStep := if p = 0 then s.executionStep + 1 else s.executionStep }

/-- R62, R132: the length of the instruction an opcode resolves to, 1 when none does. -/
def lengthOf (c : Config) (op : Nat) : Nat :=
  match lookup c op with
  | some h => h.ipIncrement
  | none => 1

/-- R171, R175, the engine's only abnormal event, and R143: what the `execute` phase does to the state when no instruction
resolves. Nothing is saved and control goes nowhere; nothing returns from it (R177). -/
def unresolvedHalt (c : Config) (s : State P) : State P :=
  match c.unresolvedExecute with
  | .halt => setHalt s
  | .nop => s

end Sys2Proof.Machine
end

