-- ==== Sys2Proof/Machine/Ref8.lean ====
section
/-! DEFINITION. The reference configuration REF8 (spec/43_reference_table.md R150) and the spec's variants of it (R162, R163),
as plain data. Their effects are in Machine/Ref8Engine.lean. -/

namespace Sys2Proof.Machine

/-- R150: REF8. -/
def ref8 : Config where
  memoryBitWidth := 8
  registerBitWidth := 8
  numMemoryAddresses := 256
  registerNames := ["IP", "IS", "R0", "R1"]
  instructionTable := opcodeRows

/-- REF8's register "IP". -/
abbrev regIP : Register ref8 := ⟨0, by decide⟩
/-- REF8's register "IS". -/
abbrev regIS : Register ref8 := ⟨1, by decide⟩
/-- REF8's register "R0". -/
abbrev regR0 : Register ref8 := ⟨2, by decide⟩
/-- REF8's register "R1". -/
abbrev regR1 : Register ref8 := ⟨3, by decide⟩

/-- R162: the resolver of REF8U. -/
def ref8UResolver (op : Nat) : Option InstructionHeader :=
  if 128 ≤ op ∧ op ≤ 255 then some ⟨"undocumented two-cell no-op", 2, none⟩ else none

/-- R162: REF8U, REF8 with a resolver. -/
def ref8U : Config :=
  { ref8 with undocumentedOpcodeResolver := some ref8UResolver }

/-- R162: REF8N, REF8 with UNRESOLVED_EXECUTE = Nop. -/
def ref8N : Config :=
  { ref8 with unresolvedExecute := .nop }

/-- R163: a configuration with an empty table and the registers IP, IS and A. -/
def bareConfig (memw regw n : Nat) : Config where
  memoryBitWidth := memw
  registerBitWidth := regw
  numMemoryAddresses := n
  registerNames := ["IP", "IS", "A"]
  instructionTable := []

/-- R163: REF4. -/
def ref4 : Config := bareConfig 4 4 16
/-- R163: ODD10, where N does not divide `2^REGW`. -/
def odd10 : Config := bareConfig 4 4 10
/-- R163: NARROW3, where `2^REGW < N` and `MEMW > REGW`. -/
def narrow3 : Config := bareConfig 8 3 16

end Sys2Proof.Machine
end

