-- ==== Sys2Proof/Machine/Arithmetic.lean ====
section
/-! DEFINITION. The meanings of ADD, SUB and SWAP (spec/43_reference_table.md R157 to R159). They compute in unbounded
integers and the result is reduced at the write (spec/40_arithmetic_constraints.md R106). No flag is kept. -/

namespace Sys2Proof.Machine

/-- R157: `setRegister(R0, getRegister(R0) + getRegister(R1))`. -/
def execAdd (s : State) : Result :=
  .next (setRegister ref8 regR0 ((getRegister ref8 regR0 s : Int) + (getRegister ref8 regR1 s : Int)) s)

/-- R158: `setRegister(R0, getRegister(R0) - getRegister(R1))`; the difference may be negative. -/
def execSub (s : State) : Result :=
  .next (setRegister ref8 regR0 ((getRegister ref8 regR0 s : Int) - (getRegister ref8 regR1 s : Int)) s)

/-- R159, R121: both registers are read before either is written. -/
def execSwap (s : State) : Result :=
  let a := getRegister ref8 regR0 s
  let b := getRegister ref8 regR1 s
  .next (setRegister ref8 regR1 a (setRegister ref8 regR0 b s))

end Sys2Proof.Machine
end

