-- ==== Sys2Proof/Machine/Operands.lean ====
section
/-! DEFINITION. The operand form of the engine: an operand is a whole cell of the executing instruction
(spec/41_state_operations.md R114 to R116; spec/30_encoding.md R64). -/

namespace Sys2Proof.Machine

variable {P : Type}

/-- R114, R115: the cell at `x[IP] - (ipIncrement - n)`, for every integer `n`; no value when nothing resolves for IS (R116). -/
def getArgument (c : Config) (n : Int) (s : State P) : Option Nat :=
  match lookup c (getRegister c c.is s) with
  | some h => some (getMemory c ((getRegister c c.ip s : Int) - ((h.ipIncrement : Int) - n)) s)
  | none => none

/-- The operand of the executing instruction when it has one or no operand cell (formats F1 and F2, R63): `getArgument(1)`, or
0, which nothing reads, for a one-cell instruction. -/
def executingOperand (c : Config) (s : State P) : Option Nat :=
  match lookup c (getRegister c c.is s) with
  | some h => if h.ipIncrement = 1 then some 0 else getArgument c 1 s
  | none => none

end Sys2Proof.Machine
end

