-- ==== Sys2Proof/Machine/Control.lean ====
section
/-! DEFINITION. The meanings of HALT, NOP, JMP and JZ (spec/43_reference_table.md R151, R152, R160, R161). -/

namespace Sys2Proof.Machine

/-- R151, R172: `setHalt()`; an ordinary completion, no exception. -/
def execHalt (s : State) : Result :=
  .next (setHalt s)

/-- R152: nothing. -/
def execNop (s : State) : Result :=
  .next s

/-- R160: `setRegister(IP, getArgument(1))`, the operand read before IP is written (R204). -/
def execJmp (target : Nat) (s : State) : Result :=
  .next (setRegister ref8 regIP target s)

/-- R161: if R0 is 0 then `setRegister(IP, getArgument(1))`, else nothing. -/
def execJz (target : Nat) (s : State) : Result :=
  if getRegister ref8 regR0 s = 0 then .next (setRegister ref8 regIP target s) else .next s

end Sys2Proof.Machine
end

