-- ==== Sys2Proof/Machine/LoadStore.lean ====
section
/-! DEFINITION. The meanings of LDR0, LDR1, LOAD and STORE (spec/43_reference_table.md R153 to R156). Each is the effect,
which runs in the `execute` phase, its operand already read as `getArgument(1)`. -/

namespace Sys2Proof.Machine

/-- R153: `setRegister(R0, getArgument(1))`. -/
def execLdr0 (imm : Nat) (s : State) : Result :=
  .next (setRegister ref8 regR0 imm s)

/-- R154: `setRegister(R1, getArgument(1))`. -/
def execLdr1 (imm : Nat) (s : State) : Result :=
  .next (setRegister ref8 regR1 imm s)

/-- R155: `setRegister(R0, getMemory(getArgument(1)))`. -/
def execLoad (addr : Nat) (s : State) : Result :=
  .next (setRegister ref8 regR0 (getMemory ref8 addr s) s)

/-- R156: `setMemory(getArgument(1), getRegister(R0))`. -/
def execStore (addr : Nat) (s : State) : Result :=
  .next (setMemory ref8 addr (getRegister ref8 regR0 s) s)

end Sys2Proof.Machine
end

