-- ==== Sys2Proof/Machine/Dispatch.lean ====
section
/-! DEFINITION. The dispatcher: one arm per instruction of REF8, each one call of its meaning. -/

namespace Sys2Proof.Machine

def exec (i : Instr) (s : State) : Host.Outcome State Fault Refusal :=
  match i with
  | .halt => Sys2Proof.Machine.execHalt s
  | .nop => Sys2Proof.Machine.execNop s
  | .ldr0 imm => Sys2Proof.Machine.execLdr0 imm s
  | .ldr1 imm => Sys2Proof.Machine.execLdr1 imm s
  | .load addr => Sys2Proof.Machine.execLoad addr s
  | .store addr => Sys2Proof.Machine.execStore addr s
  | .add => Sys2Proof.Machine.execAdd s
  | .sub => Sys2Proof.Machine.execSub s
  | .swap => Sys2Proof.Machine.execSwap s
  | .jmp target => Sys2Proof.Machine.execJmp target s
  | .jz target => Sys2Proof.Machine.execJz target s

end Sys2Proof.Machine
end

