-- ==== Sys2Proof/Machine/Peripherals.lean ====
section
/-! DEFINITION. Peripherals at their interface (spec/60_exceptions.md R181, spec/10_state.md R32): the state type, the reset and
the operations of each, "as configuration", and the composition of their states into the one value `periph`. -/

namespace Sys2Proof.Machine

/-- R12, R119, R181: a peripheral whose own state is of type `σ`. `reset` makes its state after a reset; an operation takes
arguments and the state to a new state and possibly a value. Each acts on this peripheral's state only. -/
structure Peripheral (σ : Type) where
  /-- what its slot holds when `newState` builds the state, before that first `reset`: the spec gives no value, so the
  configuration does (log entry 7) -/
  beforeReset : σ
  /-- invoked once per `newState` and `reset` -/
  reset : σ → σ
  /-- the operations effects call; arguments and value are integers (R15) -/
  operations : List (List Int → σ → σ × Option Int)

/-- R12, R32: an "ordered list of capability objects" and the type of `periph` that it fixes, "a set of independently-owned state
slots": one element when the list is empty, else the first peripheral's state with those of the rest. -/
inductive Peripherals : Type → Type 1 where
  /-- "With `peripherals = []`, `P` is the one-element type" -/
  | nil : Peripherals Unit
  /-- one peripheral more, first in configuration order -/
  | cons {σ P : Type} (dev : Peripheral σ) (rest : Peripherals P) : Peripherals (σ × P)

/-- R190: each peripheral's `reset` invoked once, in configuration order, on a newly built state. -/
def Peripherals.fresh {P : Type} : Peripherals P → P
  | .nil => ()
  | .cons dev rest => (dev.reset dev.beforeReset, rest.fresh)

/-- R119: the `op`-th operation of the `p`-th peripheral, on that peripheral's slot. No result when there is none. -/
def Peripherals.call {P : Type} : Peripherals P → Nat → Nat → List Int → P → Option (P × Option Int)
  | .nil, _, _, _, _ => none
  | .cons dev _, 0, op, args, (x, xs) => (dev.operations[op]?).map fun f => (((f args x).1, xs), (f args x).2)
  | .cons _ rest, p + 1, op, args, (x, xs) => (rest.call p op args xs).map fun (ys, v) => ((x, ys), v)

/-- The `p`-th peripheral, with the type of its state. -/
def Peripherals.device? {P : Type} : Peripherals P → Nat → Option (Σ σ : Type, Peripheral σ)
  | .nil, _ => none
  | .cons (σ := σ) dev _, 0 => some ⟨σ, dev⟩
  | .cons _ rest, p + 1 => rest.device? p

/-- The slot of the `p`-th peripheral: "state slots addressed by peripheral identity" (R32). -/
def Peripherals.slot? {P : Type} : Peripherals P → Nat → P → Option (Σ σ : Type, σ)
  | .nil, _, _ => none
  | .cons (σ := σ) _ _, 0, (x, _) => some ⟨σ, x⟩
  | .cons _ rest, p + 1, (_, xs) => rest.slot? p xs

end Sys2Proof.Machine
end

