-- ==== Sys2Proof/Machine/Engine.lean ====
section
/-! DEFINITION. The execution engine for any configuration (spec/42_pipeline_engine.md): the configuration with its effects,
custom phases and peripherals, the default phases, `step`, the pulls of `run`, the invariants R34, and the contract of effects
(spec/41_state_operations.md R119, R120). -/

namespace Sys2Proof.Machine

variable {P : Type}

/-- R12, R130, R137: one step function of a pipeline, a default phase or a custom one. -/
inductive Phase (P : Type) where
  /-- R131 -/
  | fetch
  /-- R132 -/
  | increment
  /-- R133 -/
  | execute
  /-- R137: a step function of the caller's -/
  | custom (run : State P → Result P)

/-- The whole `ProcessorConfig` of the spec (R6 to R14): the plain data, the effects, the pipeline and the peripherals. No
operation writes it. -/
structure Engine (P : Type) where
  /-- R6 to R11, R14 -/
  config : Config
  /-- R10: the `execute` of the Instruction that the table holds for an opcode (log entry 8) -/
  tableEffect : Nat → State P → Result P
  /-- R11: the `execute` of the Instruction that the resolver returns for an opcode; without a resolver nothing asks for it -/
  resolverEffect : Nat → State P → Result P := fun _ _ => .refused .noEffect
  /-- R12: absent for the default `[fetch, increment, execute]` -/
  pipeline : Option (List (Phase P)) := none
  /-- R12, in configuration order; they fix `P` (R32) -/
  peripherals : Peripherals P

/-- R130: the default pipeline. -/
def defaultPipeline : List (Phase P) :=
  [.fetch, .increment, .execute]

/-- R12: the active pipeline. -/
def Engine.phases (e : Engine P) : List (Phase P) :=
  e.pipeline.getD defaultPipeline

/-- R12: L, the length of the active pipeline. -/
def Engine.length (e : Engine P) : Nat :=
  e.phases.length

/-- R65, R69: the `execute` of the Instruction that `lookup` returns for an opcode: the table's has priority. -/
def Engine.effect (e : Engine P) (op : Nat) : State P → Result P :=
  match e.config.instructionTable.lookup op with
  | some _ => e.tableEffect op
  | none => e.resolverEffect op

/-- R119: the `op`-th operation of the `p`-th peripheral, on that peripheral's slot; it changes no other component. DESIGN
CHOICE: no result when the configuration has no such peripheral or operation (U9, log entry 32). -/
def peripheralCall (e : Engine P) (p op : Nat) (args : List Int) (s : State P) : Option (State P × Option Int) :=
  (e.peripherals.call p op args s.periph).map fun (x, v) => ({ s with periph := x }, v)

/-- R119 inside an effect: the state after a peripheral operation whose value is not used. -/
def peripheralDo (e : Engine P) (p op : Nat) (args : List Int) (s : State P) : Result P :=
  match peripheralCall e p op args s with
  | some (t, _) => .next t
  | none => .refused .noSuchPeripheralOperation

/-- R131: the cell at IP into IS; IP does not move. -/
def fetch (c : Config) (s : State P) : State P :=
  setRegister c c.is (getMemory c (getRegister c c.ip s) s) s

/-- R132: IP advanced by the length of the instruction in IS, by 1 when none resolves. -/
def increment (c : Config) (s : State P) : State P :=
  setRegister c c.ip ((getRegister c c.ip s : Int) + (lengthOf c (getRegister c c.is s) : Int)) s

/-- R133: the instruction resolved again, its whole effect run; when none resolves, the halt of R171 or nothing (R143). -/
def execute (e : Engine P) (s : State P) : Result P :=
  match lookup e.config (getRegister e.config e.config.is s) with
  | some _ => e.effect (getRegister e.config e.config.is s) s
  | none => .next (unresolvedHalt e.config s)

/-- One phase. -/
def runPhase (e : Engine P) (p : Phase P) (s : State P) : Result P :=
  match p with
  | .fetch => .next (fetch e.config s)
  | .increment => .next (increment e.config s)
  | .execute => execute e s
  | .custom f => f s

/-- R134, R135: nothing when halted; else the phase at `pipelineStep`, to its end, and then `advancePipeline`. The host's request
for it is `transact e .step`, which refuses an engine that is not well formed (R13). -/
def engineStep (e : Engine P) (s : State P) : Result P :=
  if s.isHalted then .next s
  else match e.phases[s.pipelineStep]? with
    | none => .refused .pipelineStepOutOfRange
    | some p => match runPhase e p s with
      | .next t => .next (advancePipeline e.length t)
      | .fault r => .fault r
      | .refused r => .refused r

/-- `k` steps, one after another, the host issuing nothing else. -/
def engineSteps (e : Engine P) : Nat → State P → Result P
  | 0, s => .next s
  | k + 1, s => match engineStep e s with
    | .next t => engineSteps e k t
    | .fault r => .fault r
    | .refused r => .refused r

/-- R136: what a host that pulls at most `pulls` times is handed: one result per underlying `step`, until the machine is halted.
The engine itself has no step limit (R211); the host ceases to pull. The host's request for it is `run`, which refuses an engine
that is not well formed. -/
def pulled (e : Engine P) : Nat → State P → List (Result P)
  | 0, _ => []
  | k + 1, s =>
    if s.isHalted then []
    else match engineStep e s with
      | .next t => .next t :: pulled e k t
      | .fault r => [.fault r]
      | .refused r => [.refused r]

/-- R138: the end of a cycle that began with `xs` cycles counted. -/
def endCycle (xs : Nat) (t : State P) : State P :=
  { t with pipelineStep := 0, executionStep := xs + 1 }

/-- R138, the composite of one cycle of the default pipeline, written from the rule's own pseudocode. An effect may read
`pipelineStep` (R120) and sees the index of the `execute` phase, 2. -/
def cycle (e : Engine P) (s : State P) : Result P :=
  let c := e.config
  let a := getRegister c c.ip s
  let op := constrainRegisterValue c.registerBitWidth (getMemory c a s)
  let u := setRegister c c.ip ((a : Int) + (lengthOf c op : Int)) (setRegister c c.is op s)
  match lookup c op with
  | some _ => match e.effect op { u with pipelineStep := 2 } with
    | .next t => .next (endCycle s.executionStep t)
    | .fault r => .fault r
    | .refused r => .refused r
  | none => .next (endCycle s.executionStep (unresolvedHalt c u))

/-- R34, (I1) to (I4) and (I6). That there is one slot per peripheral (R32) is in the type of `periph`. -/
structure Inv (e : Engine P) (s : State P) : Prop where
  /-- I1, I6 for memory: canonical, below N, each cell below `2^MEMW` -/
  memory : Memory.wf e.config.numMemoryAddresses e.config.memoryBitWidth s.memory = true
  /-- I6 for registers: exactly the configured ones -/
  registerCount : s.registers.length = e.config.registerNames.length
  /-- I2 -/
  registers : ∀ v ∈ s.registers, v < 2 ^ e.config.registerBitWidth
  /-- I3 -/
  ip : getRegister e.config e.config.ip s < e.config.numMemoryAddresses
  /-- I4 -/
  pipelineStep : s.pipelineStep < e.length

/-- R120: one write that the contract of effects allows, from a state to a state. -/
inductive AccessorWrite (e : Engine P) (s : State P) : State P → Prop where
  /-- registers only through `setRegister` -/
  | register (r : Register e.config) (v : Int) : AccessorWrite e s (setRegister e.config r v s)
  /-- memory only through `setMemory` -/
  | memory (a v : Int) : AccessorWrite e s (setMemory e.config a v s)
  /-- `isHalted` only through `setHalt` -/
  | halt : AccessorWrite e s (setHalt s)
  /-- `periph` only through peripheral operations -/
  | peripheral (p op : Nat) (args : List Int) (t : State P) (v : Option Int)
      (h : peripheralCall e p op args s = some (t, v)) : AccessorWrite e s t

/-- R120: any number of allowed writes, one after another. -/
inductive AccessorWrites (e : Engine P) (s : State P) : State P → Prop where
  /-- no write at all -/
  | refl : AccessorWrites e s s
  /-- one write more -/
  | tail (t u : State P) (h : AccessorWrites e s t) (w : AccessorWrite e t u) : AccessorWrites e s u

/-- R120, D8: a total function of the engine's states, those that meet the invariants of R34, that changes the state by allowed
writes only. Nothing is asked of it elsewhere: no run reaches another state. -/
def EffectContract (e : Engine P) (f : State P → Result P) : Prop :=
  ∀ s : State P, Inv e s → ∃ t : State P, f s = .next t ∧ AccessorWrites e s t

/-- R120 for the `execute` of an Instruction: it answers by allowed writes only, in every state of the engine. Where nothing
resolves for IS, `getArgument` gives it no value (R116) and it may be refused for that: `execute` runs no effect there (DEDUCED,
log entry 36). -/
def ExecuteContract (e : Engine P) (f : State P → Result P) : Prop :=
  ∀ s : State P, Inv e s → (∃ t : State P, f s = .next t ∧ AccessorWrites e s t)
    ∨ (lookup e.config (getRegister e.config e.config.is s) = none ∧ f s = .refused .argumentUnresolved)

/-- R13: a well-formed configuration, the parts that are no plain data with it. Every Instruction of the table and every one that
the resolver can return is asked for, be its opcode ever looked up or not. -/
structure Engine.WellFormed (e : Engine P) : Prop where
  /-- the plain-data part, the lengths of the table's Instructions among it -/
  config : e.config.wellFormed = true
  /-- R11: every Instruction that the resolver can return has a length of at least 1 -/
  resolver : ∀ (f : Nat → Option InstructionHeader) (op : Nat) (h : InstructionHeader),
    e.config.undocumentedOpcodeResolver = some f → f op = some h → 1 ≤ h.ipIncrement
  /-- R120 for every Instruction of the table -/
  tableEffects : ∀ (op : Nat) (h : InstructionHeader), (op, h) ∈ e.config.instructionTable → ExecuteContract e (e.tableEffect op)
  /-- R120 for every Instruction that the resolver can return -/
  resolverEffects : ∀ (f : Nat → Option InstructionHeader) (op : Nat) (h : InstructionHeader),
    e.config.undocumentedOpcodeResolver = some f → f op = some h → ExecuteContract e (e.resolverEffect op)
  /-- D17: L is at least 1 -/
  pipeline : 1 ≤ e.length
  /-- R137: custom step functions obey the effect contract -/
  customs : ∀ f : State P → Result P, Phase.custom f ∈ e.phases → EffectContract e f

end Sys2Proof.Machine
end

