-- ==== Sys2Proof/Machine/Ref8Engine.lean ====
section
/-! DEFINITION. REF8 and its variants as engines (spec/43_reference_table.md R150, R162, R163): the effect of an opcode is
`exec` of the instruction that the opcode in IS and the operand cell make. -/

namespace Sys2Proof.Machine

/-- R151 to R161: the effect of an opcode of REF8. The operand cell is read now, in the `execute` phase, by `getArgument(1)`
(R53, R114). -/
def ref8Effect (c : Config) (op : Nat) (s : State) : Result :=
  match executingOperand c s with
  | none => .refused .argumentUnresolved
  | some arg => match instrOf op arg with
    | some i => exec i s
    | none => .refused .noEffect

/-- R150: REF8, with the default pipeline and no peripherals. -/
def ref8Engine : Engine Unit where
  config := ref8
  tableEffect := ref8Effect ref8
  peripherals := .nil

/-- R162: REF8U; an undocumented opcode does nothing. -/
def ref8UEngine : Engine Unit where
  config := ref8U
  tableEffect := ref8Effect ref8U
  resolverEffect := fun _ s => .next s
  peripherals := .nil

/-- R162: REF8N. -/
def ref8NEngine : Engine Unit where
  config := ref8N
  tableEffect := ref8Effect ref8N
  peripherals := .nil

/-- R163: an engine with an empty table, which has no effect to run. -/
def bareEngine (c : Config) : Engine Unit where
  config := c
  tableEffect := fun _ _ => .refused .noEffect
  peripherals := .nil

end Sys2Proof.Machine
end

