-- ==== Sys2Proof/Machine/Loading.lean ====
section
/-! DEFINITION. Placing an instruction where the machine's next `step` runs it (the host's question, log entry 2). -/

namespace Sys2Proof.Machine

/-- The two cells of the longest instruction of REF8, from the low `nbits` bits of `w`, stored at IP and the cell after. -/
def placeWord (nbits w : Nat) (s : State) : State :=
  let v := w % 2 ^ nbits
  let a : Int := getRegister ref8 regIP s
  setMemory ref8 (a + 1) (v / 256 % 256 : Nat) (setMemory ref8 a (v % 256 : Nat) s)

/-- The state in which that instruction has gone through its `fetch` and `increment` phases and the next `step` is its
`execute` phase: one `step` is one phase (R134), so nothing else makes the very next step run it. -/
def readyToExecute (nbits w : Nat) (s : State) : State :=
  { increment ref8 (fetch ref8 (placeWord nbits w s)) with isHalted := false, pipelineStep := 2 }

end Sys2Proof.Machine
end

