-- ==== Sys2Proof/Machine/Step.lean ====
section
/-! DEFINITION. The step of the machine, one phase (spec/42_pipeline_engine.md R134), and the host's placing of a word. -/

namespace Sys2Proof.Machine

/-- R134: the engine's `step` at REF8. -/
def step (s : State) : Host.Outcome State Fault Refusal :=
  engineStep ref8Engine s

/-- The state whose very next `step` runs the instruction whose bits are `w` (log entry 2). -/
def State.withFetchWord (s : State) (nbits w : Nat) : State :=
  readyToExecute nbits w s

end Sys2Proof.Machine
end

