-- ==== Sys2Proof/Machine/UpperCase.lean ====
section
/-! DEFINITION. Which characters conversion to upper case changes, for the label definitions of the assembler
(spec/30_encoding.md R75). Inside ASCII these are the letters a to z. Outside ASCII the rule is the spec's, and the letters are
those of the Unicode Character Database, version 14.0: PRESUMED, log entry 35. -/

namespace Sys2Proof.Machine

/-- Characters outside ASCII that conversion to upper case changes, as (first, last, stride), part 1 of 3: U+00B5 to
U+028C. -/
def caseRanges1 : List (Nat × Nat × Nat) :=
  [(181, 181, 1), (223, 246, 1), (248, 255, 1), (257, 311, 2), (314, 328, 2), (329, 375, 2), (378, 382, 2),
   (383, 384, 1), (387, 389, 2), (392, 392, 1), (396, 396, 1), (402, 402, 1), (405, 405, 1), (409, 410, 1),
   (414, 414, 1), (417, 421, 2), (424, 424, 1), (429, 429, 1), (432, 432, 1), (436, 438, 2), (441, 441, 1),
   (445, 447, 2), (453, 454, 1), (456, 457, 1), (459, 460, 1), (462, 476, 2), (477, 495, 2), (496, 498, 2),
   (499, 501, 2), (505, 543, 2), (547, 563, 2), (572, 572, 1), (575, 576, 1), (578, 578, 1), (583, 591, 2),
   (592, 596, 1), (598, 599, 1), (601, 603, 2), (604, 604, 1), (608, 609, 1), (611, 613, 2), (614, 616, 2),
   (617, 620, 1), (623, 625, 2), (626, 626, 1), (629, 629, 1), (637, 637, 1), (640, 642, 2), (643, 643, 1),
   (647, 652, 1)]

/-- Characters outside ASCII that conversion to upper case changes, as (first, last, stride), part 2 of 3: U+0292 to
U+1FF7. -/
def caseRanges2 : List (Nat × Nat × Nat) :=
  [(658, 658, 1), (669, 670, 1), (837, 837, 1), (881, 883, 2), (887, 887, 1), (891, 893, 1), (912, 912, 1),
   (940, 974, 1), (976, 977, 1), (981, 983, 1), (985, 1007, 2), (1008, 1011, 1), (1013, 1013, 1), (1016, 1016, 1),
   (1019, 1019, 1), (1072, 1119, 1), (1121, 1153, 2), (1163, 1215, 2), (1218, 1230, 2), (1231, 1327, 2),
   (1377, 1415, 1), (4304, 4346, 1), (4349, 4351, 1), (5112, 5117, 1), (7296, 7304, 1), (7545, 7545, 1),
   (7549, 7549, 1), (7566, 7566, 1), (7681, 7829, 2), (7830, 7835, 1), (7841, 7935, 2), (7936, 7943, 1),
   (7952, 7957, 1), (7968, 7975, 1), (7984, 7991, 1), (8000, 8005, 1), (8016, 8023, 1), (8032, 8039, 1),
   (8048, 8061, 1), (8064, 8116, 1), (8118, 8119, 1), (8124, 8126, 2), (8130, 8132, 1), (8134, 8135, 1),
   (8140, 8140, 1), (8144, 8147, 1), (8150, 8151, 1), (8160, 8167, 1), (8178, 8180, 1), (8182, 8183, 1)]

/-- Characters outside ASCII that conversion to upper case changes, as (first, last, stride), part 3 of 3: U+1FFC to
U+1E943. -/
def caseRanges3 : List (Nat × Nat × Nat) :=
  [(8188, 8188, 1), (8526, 8526, 1), (8560, 8575, 1), (8580, 8580, 1), (9424, 9449, 1), (11312, 11359, 1),
   (11361, 11361, 1), (11365, 11366, 1), (11368, 11372, 2), (11379, 11379, 1), (11382, 11382, 1), (11393, 11491, 2),
   (11500, 11502, 2), (11507, 11507, 1), (11520, 11557, 1), (11559, 11559, 1), (11565, 11565, 1), (42561, 42605, 2),
   (42625, 42651, 2), (42787, 42799, 2), (42803, 42863, 2), (42874, 42876, 2), (42879, 42887, 2), (42892, 42892, 1),
   (42897, 42899, 2), (42900, 42900, 1), (42903, 42921, 2), (42933, 42947, 2), (42952, 42954, 2), (42961, 42961, 1),
   (42967, 42969, 2), (42998, 42998, 1), (43859, 43859, 1), (43888, 43967, 1), (64256, 64262, 1), (64275, 64279, 1),
   (65345, 65370, 1), (66600, 66639, 1), (66776, 66811, 1), (66967, 66977, 1), (66979, 66993, 1), (66995, 67001, 1),
   (67003, 67004, 1), (68800, 68850, 1), (71872, 71903, 1), (93792, 93823, 1), (125218, 125251, 1)]

/-- All characters outside ASCII that conversion to upper case changes. -/
def caseRanges : List (Nat × Nat × Nat) :=
  caseRanges1 ++ caseRanges2 ++ caseRanges3

/-- Whether the code point `n` stands in a range. -/
def inCaseRange (n : Nat) (r : Nat × Nat × Nat) : Bool :=
  decide (r.1 ≤ n) && decide (n ≤ r.2.1) && decide ((n - r.1) % r.2.2 = 0)

/-- R75, D23: conversion to upper case changes the character, so a token with it is not "entirely upper-case". -/
def changedByUpperCase (x : Char) : Bool :=
  (decide (97 ≤ x.toNat) && decide (x.toNat ≤ 122)) || (decide (128 ≤ x.toNat) && caseRanges.any (inCaseRange x.toNat))

end Sys2Proof.Machine
end

