-- ==== Sys2Proof/Machine/Assembler.lean ====
section
/-! DEFINITION. The assembler (spec/30_encoding.md R71 to R90), the toolchain of the source: a pure function of the source
text and the mnemonic map. It reads and writes no machine state. -/

namespace Sys2Proof.Machine

/-- R74, D35: space, tab, carriage return, form feed, vertical tab; outside ASCII a free value. -/
def isWhite (x : Char) : Bool :=
  x.toNat == 32 || x.toNat == 9 || x.toNat == 13 || x.toNat == 12 || x.toNat == 11
    || (decide (128 ≤ x.toNat) && Config.unicodeSpace x)

/-- R72: the lines of a text, separated by the line feed U+000A; there is always at least one. -/
def splitLines : Text → List Text
  | [] => [[]]
  | x :: xs =>
    if x.toNat = 10 then [] :: splitLines xs
    else match splitLines xs with
      | [] => [[x]]
      | l :: ls => (x :: l) :: ls

/-- R73: the line up to its first comment marker, two slashes. -/
def stripComment : Text → Text
  | [] => []
  | x :: xs => if x.toNat = 47 && (xs.head?.map Char.toNat) == some 47 then [] else x :: stripComment xs

/-- R74, R87: a token with the zero-based line and column where it starts. -/
structure Token where
  /-- zero-based line -/
  line : Nat
  /-- zero-based column of the first character -/
  col : Nat
  /-- the token's characters -/
  text : Text
  deriving DecidableEq, Repr

/-- R74: the maximal runs of non-white characters of a line, from column `col` on; `open?` is the start and the characters,
last first, of the run the scan is inside of. -/
def tokensFrom (line : Nat) : Nat → Option (Nat × Text) → Text → List Token
  | _, none, [] => []
  | _, some (k, t), [] => [⟨line, k, t.reverse⟩]
  | col, none, x :: xs =>
    if isWhite x then tokensFrom line (col + 1) none xs else tokensFrom line (col + 1) (some (col, [x])) xs
  | col, some (k, t), x :: xs =>
    if isWhite x then ⟨line, k, t.reverse⟩ :: tokensFrom line (col + 1) none xs
    else tokensFrom line (col + 1) (some (k, x :: t)) xs

/-- R72 to R74: the tokens of the lines from line `line` on. -/
def tokensOfLines : Nat → List Text → List Token
  | _, [] => []
  | line, l :: ls => tokensFrom line 0 none (stripComment l) ++ tokensOfLines (line + 1) ls

/-- R72 to R74: all tokens of a source, line by line, left to right. -/
def tokens (source : Text) : List Token :=
  tokensOfLines 0 (splitLines source)

/-- R75: the last character is a colon and the token is unchanged by conversion to upper case. -/
def isLabelDefinition (t : Text) : Bool :=
  (t.getLast?.map Char.toNat) == some 58 && t.all fun x => !changedByUpperCase x

/-- R75: the token without its final colon. -/
def labelName (t : Text) : Text :=
  t.dropLast

/-- R75: the operand tokens, in emission order. -/
def operandTokens (source : Text) : List Token :=
  (tokens source).filter fun t => !isLabelDefinition t.text

/-- R76: each label defined, with the number of operand tokens strictly before it, `p` of them before these tokens. -/
def labelsFrom : Nat → List Token → List (Text × Nat)
  | _, [] => []
  | p, t :: ts =>
    if isLabelDefinition t.text then (labelName t.text, p) :: labelsFrom p ts else labelsFrom (p + 1) ts

/-- R77: the labels of the entire source. -/
def labels (source : Text) : List (Text × Nat) :=
  labelsFrom 0 (tokens source)

/-- R80, D25: the code point of a character that is one UTF-16 code unit; otherwise a free value. -/
def charCode (x : Char) : Nat :=
  if x.toNat < 65536 then x.toNat else Config.astralCode x

/-- R80: the code of a quoted single character, three characters with apostrophes around. -/
def quotedChar : Text → Option Nat
  | [q, x, r] => if q.toNat = 39 && r.toNat = 39 then some (charCode x) else none
  | _ => none

/-- An ASCII digit. -/
def isDecimalDigit (x : Char) : Bool :=
  decide (48 ≤ x.toNat) && decide (x.toNat ≤ 57)

/-- R81: one or more ASCII digits and nothing else. -/
def decimal (t : Text) : Option Nat :=
  if !t.isEmpty && t.all isDecimalDigit then some (t.foldl (fun n x => 10 * n + (x.toNat - 48)) 0) else none

/-- R78 to R82: what an operand token emits: label, mnemonic, quoted character, decimal integer, in this precedence. -/
def resolveToken (labelMap mnemonics : List (Text × Nat)) (t : Text) : Option Nat :=
  match labelMap.lookup t with
  | some a => some a
  | none => match mnemonics.lookup t with
    | some op => some op
    | none => match quotedChar t with
      | some code => some code
      | none => decimal t

/-- R83: the values of the operand tokens from position `p` on, or the first that resolves to nothing, with its position. -/
def resolveFrom (labelMap mnemonics : List (Text × Nat)) : Nat → List Token → Except (Text × Nat) (List Nat)
  | _, [] => .ok []
  | p, t :: ts => match resolveToken labelMap mnemonics t.text with
    | none => .error (t.text, p)
    | some v => match resolveFrom labelMap mnemonics (p + 1) ts with
      | .error x => .error x
      | .ok vs => .ok (v :: vs)

/-- R87, R88: for each operand token its emission index, line and column. Total, for failing sources too (U24). -/
def sourceMap (b : Bases) (source : Text) : List (Nat × Nat × Nat) :=
  (operandTokens source).zipIdx.map fun (t, i) => (i, t.line + b.line.val, t.col + b.col.val)

/-- R71, R82, R84: what assembling a source gives. -/
inductive Assembled where
  /-- the values and the source map -/
  | ok (values : List Nat) (map : List (Nat × Nat × Nat))
  /-- R82: the unresolvable token and its zero-based operand position -/
  | error (token : Text) (position : Nat)
  /-- R84, D26: a label is defined twice; the spec's model claims nothing; safe -/
  | refusedDuplicateLabel
  deriving DecidableEq, Repr

/-- R83: the whole algorithm, for a given mnemonic map. A list with a mnemonic twice is no map; DESIGN CHOICE: the first entry is
taken (log entry 34). `assembleFor` refuses such a table. -/
def assemble (b : Bases) (mnemonics : List (Text × Nat)) (source : Text) : Assembled :=
  if decide ((labels source).map Prod.fst).Nodup then
    match resolveFrom (labels source) mnemonics 0 (operandTokens source) with
    | .ok values => .ok values (sourceMap b source)
    | .error (t, p) => .error t p
  else .refusedDuplicateLabel

end Sys2Proof.Machine
end

