-- ==== Sys2Proof/Machine/Transactions.lean ====
section
/-! DEFINITION. The host's side of the engine (spec/70_reset_and_hazards.md): construction, reset, the bulk loads, the
transactions of R200 with the duties of R201, and the boot sequence R196. -/

namespace Sys2Proof.Machine

variable {P : Type}

/-- R190: the state `newState` builds: all cells and registers 0, each peripheral reset once, in configuration order. -/
def freshState (e : Engine P) : State P where
  memory := []
  registers := List.replicate e.config.registerNames.length 0
  periph := e.peripherals.fresh
  isHalted := false
  pipelineStep := 0
  executionStep := 0

/-- R190, R13: `newState`; every configuration that is not well formed is refused, for its resolver, effects and custom phases
too. Whether it is well formed is not computed but decided by the caller's evidence (log entry 27). -/
def newState (e : Engine P) [Decidable e.WellFormed] : Result P :=
  if e.WellFormed then .next (freshState e) else .refused .illFormedConfiguration

/-- R191: the state "is replaced wholesale", memory included. -/
def resetState (e : Engine P) [Decidable e.WellFormed] (_ : State P) : Result P :=
  newState e

/-- R193: the whole memory overwritten with the masked values and zeros; R194: a longer list is refused. -/
def bulkLoadMemory (c : Config) (values : List Int) (s : State P) : Result P :=
  if values.length ≤ c.numMemoryAddresses then
    .next { s with memory := Memory.ofValues c.memoryBitWidth 0 values }
  else .refused .tooManyMemoryValues

/-- R195, R201 H3: the host's duty, value by value from position `i` on. -/
def registerDutyFrom (c : Config) : Nat → List Int → Bool
  | _, [] => true
  | i, v :: vs =>
    decide (0 ≤ v) && decide (v < (2 : Int) ^ c.registerBitWidth) && (i != c.ip.val || decide (v < (c.numMemoryAddresses : Int)))
      && registerDutyFrom c (i + 1) vs

/-- R195: all registers overwritten in the order of `registerNames`, raw, excess positions 0; refused outside the duty. -/
def bulkLoadRegisters (c : Config) (values : List Int) (s : State P) : Result P :=
  if decide (values.length ≤ c.registerNames.length) && registerDutyFrom c 0 values then
    .next { s with
      registers := values.map Int.toNat ++ List.replicate (c.registerNames.length - values.length) 0 }
  else .refused .registerValuesOutOfDuty

/-- R200: the host's calls on a state. `run` is a sequence of `step` (R136), one per pull, and
answers by a function of its own; `newState` and `assembleFor` take no state. -/
inductive Transaction where
  /-- R191 -/
  | reset
  /-- R134 -/
  | step
  /-- R193 -/
  | bulkLoadMemory (values : List Int)
  /-- R195 -/
  | bulkLoadRegisters (values : List Int)
  /-- R110: by name -/
  | getRegister (name : String)
  /-- R111: by name -/
  | setRegister (name : String) (v : Int)
  /-- R112 -/
  | getMemory (a : Int)
  /-- R113 -/
  | setMemory (a v : Int)
  /-- R116, R206: `getArgument` called outside an effect -/
  | getArgument (n : Int)
  /-- R28 -/
  | readIsHalted
  /-- R29 -/
  | readPipelineStep
  /-- R30 -/
  | readExecutionStep
  /-- R32 -/
  | readPeriph
  deriving DecidableEq, Repr

/-- What a transaction hands back to the host. -/
inductive Reply (P : Type) where
  /-- nothing -/
  | done
  /-- a register, a cell or a counter -/
  | value (v : Nat)
  /-- the halt flag -/
  | flag (b : Bool)
  /-- the peripherals' slots -/
  | periph (x : P)
  deriving DecidableEq, Repr

/-- A result with nothing handed back. -/
def replyDone : Result P → Host.Outcome (State P × Reply P) Fault Refusal
  | .next t => .next (t, .done)
  | .fault r => .fault r
  | .refused r => .refused r

/-- What a transaction answers on a well-formed engine. -/
def answer (e : Engine P) [Decidable e.WellFormed] (t : Transaction) (s : State P) : Host.Outcome (State P × Reply P) Fault Refusal :=
  match t with
  | .reset => replyDone (resetState e s)
  | .step => replyDone (engineStep e s)
  | .bulkLoadMemory values => replyDone (bulkLoadMemory e.config values s)
  | .bulkLoadRegisters values => replyDone (bulkLoadRegisters e.config values s)
  | .getRegister name => match registerNamed e.config name with
    | some r => .next (s, .value (getRegister e.config r s))
    | none => .refused .unknownRegister
  | .setRegister name v => match registerNamed e.config name with
    | some r => .next (setRegister e.config r v s, .done)
    | none => .refused .unknownRegister
  | .getMemory a => .next (s, .value (getMemory e.config a s))
  | .setMemory a v => .next (setMemory e.config a v s, .done)
  | .getArgument n => match getArgument e.config n s with
    | some v => .next (s, .value v)
    | none => .refused .argumentUnresolved
  | .readIsHalted => .next (s, .flag s.isHalted)
  | .readPipelineStep => .next (s, .value s.pipelineStep)
  | .readExecutionStep => .next (s, .value s.executionStep)
  | .readPeriph => .next (s, .periph s.periph)

/-- R200 to R202: one transaction, atomic, allowed in any state, mid-instruction and halted states included; every request on an
engine that is not well formed is refused (R13, duty H1 of R201). -/
def transact (e : Engine P) [Decidable e.WellFormed] (t : Transaction) (s : State P) :
    Host.Outcome (State P × Reply P) Fault Refusal :=
  if e.WellFormed then answer e t s else .refused .illFormedConfiguration

/-- R136, R200: `run`, as the results that a host is handed which pulls at most `pulls` times (log entry 24); on an engine that is
not well formed the request is refused (R13, duty H1 of R201). -/
def run (e : Engine P) [Decidable e.WellFormed] (pulls : Nat) (s : State P) : List (Result P) :=
  if e.WellFormed then pulled e pulls s else [.refused .illFormedConfiguration]

/-- R71, R200: `assemble` with the mnemonics of a configuration's table; an engine that is not well formed is refused (R13, U8). -/
def assembleFor (e : Engine P) [Decidable e.WellFormed] (b : Bases) (source : Text) : Except Refusal Assembled :=
  if e.WellFormed then .ok (assemble b e.config.mnemonics source) else .error .illFormedConfiguration

/-- R34, R202: the states a host can reach from `newState` by transactions. -/
inductive HostReachable (e : Engine P) [Decidable e.WellFormed] : State P → Prop where
  /-- after `newState` -/
  | new (s : State P) (h : newState e = .next s) : HostReachable e s
  /-- after one transaction more -/
  | transact (s t : State P) (tr : Transaction) (r : Reply P) (h : HostReachable e s) (hs : transact e tr s = .next (t, r)) :
      HostReachable e t

/-- R196: the boot sequence up to the first `step`: construction, the program at address 0, optionally the registers. -/
def boot (e : Engine P) [Decidable e.WellFormed] (program : List Int) (registers : Option (List Int)) : Result P :=
  match newState e with
  | .fault r => .fault r
  | .refused r => .refused r
  | .next s => match bulkLoadMemory e.config program s with
    | .fault r => .fault r
    | .refused r => .refused r
    | .next t => match registers with
      | none => .next t
      | some values => bulkLoadRegisters e.config values t

end Sys2Proof.Machine
end

