-- ==== Sys2Proof/Safety.lean ====
section
/-! DEFINITION. The terms statements are made in: reading an outcome, what two states share. -/

namespace Sys2Proof.Machine

variable {P : Type}

/-- The next state an outcome holds, if it holds one. -/
def nextState? : Result P → Option (State P)
  | .next t => some t
  | .fault _ => none
  | .refused _ => none

/-- Every address reads as before. -/
def SameMemory (c : Config) (s t : State P) : Prop :=
  ∀ b : Int, getMemory c b t = getMemory c b s

/-- Every address but those that wrap to the cell of `a` reads as before (R43). -/
def SameMemoryExcept (c : Config) (a : Int) (s t : State P) : Prop :=
  ∀ b : Int, b % (c.numMemoryAddresses : Int) ≠ a % (c.numMemoryAddresses : Int) → getMemory c b t = getMemory c b s

/-- There are as many registers as before, and every one but those listed holds what it held. -/
def SameRegistersExcept (c : Config) (written : List (Register c)) (s t : State P) : Prop :=
  t.registers.length = s.registers.length ∧ ∀ r : Register c, r ∉ written → getRegister c r t = getRegister c r s

/-- The components an effect must not write (R120), and the peripherals. -/
def SamePosition (s t : State P) : Prop :=
  t.periph = s.periph ∧ t.pipelineStep = s.pipelineStep ∧ t.executionStep = s.executionStep

/-- A running REF8 machine between two instructions, the opcode `op` at IP. -/
structure AtOpcode (op : Nat) (s : State) : Prop where
  /-- R34 -/
  inv : Inv ref8Engine s
  /-- R141 -/
  running : s.isHalted = false
  /-- R25 -/
  start : s.pipelineStep = 0
  /-- R60 -/
  opcode : getMemory ref8 (getRegister ref8 regIP s) s = op

/-- What every whole cycle of an instruction with opcode `op` leaves in the components no effect writes, in IS,
and in the registers that this instruction does not write (R138). -/
structure CycleOf (op : Nat) (written : List (Register ref8)) (s t : State) : Prop where
  /-- `pipelineStep` is back at 0 -/
  position : t.pipelineStep = 0
  /-- the cycle is counted -/
  counted : t.executionStep = s.executionStep + 1
  /-- no peripheral is touched -/
  periph : t.periph = s.periph
  /-- IS holds the opcode -/
  is : getRegister ref8 regIS t = op
  /-- the other registers hold what they held -/
  registers : SameRegistersExcept ref8 (regIP :: regIS :: written) s t

/-- R73, R74, R87: a token of a source by what stands in the text and nothing else: at its line, before any comment marker, its
characters start at its column and are a whole run of characters that are not white space. -/
def TokenAt (source : Text) (t : Token) : Prop :=
  ∃ l before after : Text, (splitLines source)[t.line]? = some l ∧ stripComment l = before ++ t.text ++ after
    ∧ before.length = t.col ∧ t.text ≠ [] ∧ (∀ x ∈ t.text, isWhite x = false)
    ∧ (∀ x ∈ before.getLast?, isWhite x = true) ∧ (∀ x ∈ after.head?, isWhite x = true)

end Sys2Proof.Machine
end

