-- ==== Sys2Proof/Certificates/Slice0/Obligations.lean ====
section
/-! DEFINITION. The statements about the model, each a proposition: first the arithmetic and the accessors, then decoding, the
phases and `step`, the instructions of REF8, the host's side, the assembler, and the headline results. -/

open Sys2Proof Sys2Proof.Machine

/-- R100, R101: the mask is the remainder modulo `2^w`, the low `w` bits of the two's-complement reading, with its corners.
The value for a negative `v` is the spec's decision D1 (log entry 21). -/
def Obligations.RegisterMaskIsTheRemainder : Prop :=
  ∀ (w : Nat) (v : Int), 1 ≤ w →
    (constrainRegisterValue w v : Int) = v % 2 ^ w
    ∧ constrainRegisterValue w v < 2 ^ w
    ∧ constrainRegisterValue w v = (BitVec.ofInt w v).toNat
    ∧ constrainRegisterValue w 0 = 0
    ∧ constrainRegisterValue w (2 ^ w - 1) = 2 ^ w - 1
    ∧ constrainRegisterValue w (2 ^ w) = 0
    ∧ constrainRegisterValue w (-1) = 2 ^ w - 1
    ∧ constrainMemoryValue w v = constrainRegisterValue w v

/-- R102: the source's formula gives `v mod n` whether its remainder truncates toward zero or is non-negative. -/
def Obligations.AddressWrapIsTheRemainder : Prop :=
  ∀ (n : Nat) (v : Int), 1 ≤ n →
    (constrainAddress n v : Int) = v % (n : Int)
    ∧ constrainAddress n v < n
    ∧ (constrainAddress n v : Int) = ((v.tmod n + n).tmod n)
    ∧ (constrainAddress n v : Int) = ((v % n + n) % n)
    ∧ constrainAddress n n = 0
    ∧ constrainAddress n (-1) = n - 1
    ∧ constrainAddress n (-n) = 0
    ∧ constrainAddress 1 v = 0

/-- R104, which the spec marks as derived: range, periodicity, idempotence, identity on the range, homomorphism. -/
def Obligations.ConstraintFunctionsObeyTheirLaws : Prop :=
  (∀ (w : Nat) (v k : Int), 1 ≤ w →
    constrainRegisterValue w v < 2 ^ w ∧ constrainMemoryValue w v < 2 ^ w
    ∧ constrainRegisterValue w (v + k * 2 ^ w) = constrainRegisterValue w v
    ∧ constrainMemoryValue w (v + k * 2 ^ w) = constrainMemoryValue w v
    ∧ constrainRegisterValue w (constrainRegisterValue w v) = constrainRegisterValue w v
    ∧ constrainMemoryValue w (constrainMemoryValue w v) = constrainMemoryValue w v
    ∧ (0 ≤ v ∧ v < 2 ^ w → (constrainRegisterValue w v : Int) = v ∧ (constrainMemoryValue w v : Int) = v))
  ∧ (∀ (n : Nat) (v k : Int), 1 ≤ n →
    constrainAddress n v < n
    ∧ constrainAddress n (v + k * n) = constrainAddress n v
    ∧ constrainAddress n (constrainAddress n v) = constrainAddress n v
    ∧ (0 ≤ v ∧ v < n → (constrainAddress n v : Int) = v))
  ∧ (∀ (w : Nat) (a b : Int), 1 ≤ w →
    constrainRegisterValue w (a + b) = constrainRegisterValue w (constrainRegisterValue w a + constrainRegisterValue w b)
    ∧ constrainRegisterValue w (a - b) = constrainRegisterValue w (constrainRegisterValue w a - constrainRegisterValue w b)
    ∧ constrainRegisterValue w (a * b) = constrainRegisterValue w (constrainRegisterValue w a * constrainRegisterValue w b))

/-- R107: the mask first and the wrap second, the spec's decision D4 (log entry 21); it is `v mod N` for every `v` exactly
when N divides `2^REGW`. -/
def Obligations.IpWrapIsUniformExactlyWhenNDivides : Prop :=
  ∀ c : Config, c.wellFormed = true →
    (∀ v : Int, (wrapIP c v : Int) = v % 2 ^ c.registerBitWidth % (c.numMemoryAddresses : Int))
    ∧ ((∀ v : Int, (wrapIP c v : Int) = v % (c.numMemoryAddresses : Int)) ↔ c.numMemoryAddresses ∣ 2 ^ c.registerBitWidth)

/-- R111: a write to a register stores the masked value, for IP the masked and wrapped one, and changes nothing else. -/
def Obligations.SetRegisterStoresTheConstrainedValue : Prop :=
  ∀ (P : Type) (c : Config) (s : State P) (r : Register c) (v : Int), c.wellFormed = true →
    s.registers.length = c.registerNames.length →
    (r ≠ c.ip → (getRegister c r (setRegister c r v s) : Int) = v % 2 ^ c.registerBitWidth)
    ∧ (r = c.ip → (getRegister c r (setRegister c r v s) : Int) = v % 2 ^ c.registerBitWidth % (c.numMemoryAddresses : Int))
    ∧ SameRegistersExcept c [r] s (setRegister c r v s)
    ∧ SameMemory c s (setRegister c r v s)
    ∧ (setRegister c r v s).isHalted = s.isHalted
    ∧ SamePosition s (setRegister c r v s)

/-- R113: what a cell reads after a write, for every address and value, in every state; R47, which the spec marks as derived. -/
def Obligations.ReadAfterWriteOfACell : Prop :=
  ∀ (P : Type) (c : Config) (s : State P) (a b v : Int), c.wellFormed = true →
    (getMemory c a (setMemory c b v s) : Int) =
      (if a % (c.numMemoryAddresses : Int) = b % (c.numMemoryAddresses : Int) then v % 2 ^ c.memoryBitWidth
        else (getMemory c a s : Int))
    ∧ (setMemory c b v s).registers = s.registers
    ∧ (setMemory c b v s).isHalted = s.isHalted
    ∧ SamePosition s (setMemory c b v s)

/-- spec/95_test_vectors.md P5 item 5: the memory operations do not see a multiple of N in an address nor a multiple of
`2^MEMW` in a value, as state transformers. -/
def Obligations.MemoryOperationsArePeriodic : Prop :=
  ∀ (P : Type) (c : Config) (s : State P) (a v k j : Int), c.wellFormed = true →
    getMemory c (a + k * c.numMemoryAddresses) s = getMemory c a s
    ∧ setMemory c (a + k * c.numMemoryAddresses) (v + j * 2 ^ c.memoryBitWidth) s = setMemory c a v s

/-- R54, which the spec marks as derived: where operand `n` is read after `increment`, and that on a configuration where N
divides `2^REGW` it is the cell `n` after the opcode, across the top of memory. -/
def Obligations.OperandCellsFollowTheOpcode : Prop :=
  ∀ (P : Type) (c : Config) (s : State P) (h : InstructionHeader) (n : Int), c.wellFormed = true →
    s.registers.length = c.registerNames.length → lookup c (getRegister c c.is s) = some h →
    getArgument c n (increment c s)
      = some (getMemory c ((getRegister c c.ip (increment c s) : Int) - ((h.ipIncrement : Int) - n)) s)
    ∧ (c.numMemoryAddresses ∣ 2 ^ c.registerBitWidth →
      getArgument c n (increment c s) = some (getMemory c ((getRegister c c.ip s : Int) + n) s))

/-- R116: `getArgument` while nothing resolves for IS gives no value, the spec's decision D12 (log entry 10), and the host's
request is refused (log entry 30). -/
def Obligations.ArgumentIsRefusedWhenNothingResolves : Prop :=
  ∀ (P : Type) (e : Engine P) [Decidable e.WellFormed] (s : State P) (n : Int), lookup e.config (getRegister e.config e.config.is s) = none →
    getArgument e.config n s = none
    ∧ (e.WellFormed → transact e (.getArgument n) s = .refused .argumentUnresolved)

/-- R67: in a dense table the instruction at position `op` is opcode `op`, and an opcode past the end is no key. -/
def Obligations.DenseTablesDecodeByPosition : Prop :=
  ∀ (c : Config) (hs : List InstructionHeader) (op : Nat), c.undocumentedOpcodeResolver = none →
    lookup { c with instructionTable := denseTable hs } op = hs[op]?

/-- R150, R162 and the three arms of R65 on REF8 and REF8U: the opcodes that resolve. -/
def Obligations.ResolvedOpcodesOfTheReferenceTables : Prop :=
  (∀ op : Nat, (lookup ref8 op).isSome = true ↔ op ∈ [0, 1, 17, 18, 19, 20, 21, 22, 23, 33, 34])
  ∧ (∀ op : Nat, (lookup ref8U op).isSome = true ↔
      op ∈ [0, 1, 17, 18, 19, 20, 21, 22, 23, 33, 34] ∨ (128 ≤ op ∧ op ≤ 255))

/-- R60 to R64 for REF8: decoding the cells of a well-formed instruction, whatever follows them, gives it back. -/
def Obligations.DecodeOfEncodeGivesTheInstructionBack : Prop :=
  ∀ (i : Instr) (rest : List Nat), i.wellFormed = true → decode (encode i ++ rest) = .ok (i, rest)

/-- The other direction: what decodes is a well-formed instruction whose cells stood there. -/
def Obligations.WhatDecodesWasEncoded : Prop :=
  ∀ (cells rest : List Nat) (i : Instr), decode cells = .ok (i, rest) → i.wellFormed = true ∧ cells = encode i ++ rest

/-- R62: a whole program of well-formed instructions, laid out one after another, is walked back to itself. -/
def Obligations.DecodingAProgramGivesItsInstructions : Prop :=
  ∀ is : List Instr, (∀ i ∈ is, i.wellFormed = true) → decodeAll is.length (is.flatMap encode) = .ok is

/-- Words written out from R151 to R161: opcode cell, then operand cell. That the DECODER rejects opcode 99 by name is the model's
choice (log entry 28): the machine itself decodes by `lookup` and runs that opcode to the halt. -/
def Obligations.WrittenOutWordsDecode : Prop :=
  decode [0b00000000] = .ok (.halt, []) ∧ decode [0b00000001] = .ok (.nop, [])
  ∧ decode [0b00010001, 5] = .ok (.ldr0 5, []) ∧ decode [0b00010010, 200] = .ok (.ldr1 200, [])
  ∧ decode [0b00010011, 3] = .ok (.load 3, []) ∧ decode [0b00010100, 255] = .ok (.store 255, [])
  ∧ decode [0b00010101] = .ok (.add, []) ∧ decode [0b00010110] = .ok (.sub, []) ∧ decode [0b00010111] = .ok (.swap, [])
  ∧ decode [0b00100001, 2] = .ok (.jmp 2, []) ∧ decode [0b00100010, 9] = .ok (.jz 9, [])
  ∧ decode [99, 0] = .error (.unresolvedOpcode 99)

/-- R131: the `fetch` step puts the cell at IP, masked to REGW, into IS and moves on; nothing else. -/
def Obligations.FetchLoadsTheOpcodeCell : Prop :=
  ∀ (P : Type) (e : Engine P) (s : State P), e.WellFormed → e.pipeline = none → Inv e s → s.isHalted = false →
    s.pipelineStep = 0 →
    ∃ t : State P, engineStep e s = .next t
      ∧ getRegister e.config e.config.is t = getMemory e.config (getRegister e.config e.config.ip s) s % 2 ^ e.config.registerBitWidth
      ∧ SameRegistersExcept e.config [e.config.is] s t ∧ SameMemory e.config s t
      ∧ t.isHalted = false ∧ t.periph = s.periph ∧ t.pipelineStep = 1 ∧ t.executionStep = s.executionStep

/-- R132: the `increment` step advances IP by the length of what resolves, by 1 when nothing does; nothing else. -/
def Obligations.IncrementAdvancesByTheLength : Prop :=
  ∀ (P : Type) (e : Engine P) (s : State P), e.WellFormed → e.pipeline = none → Inv e s → s.isHalted = false →
    s.pipelineStep = 1 →
    ∃ t : State P, engineStep e s = .next t
      ∧ (∀ h : InstructionHeader, lookup e.config (getRegister e.config e.config.is s) = some h →
          getRegister e.config e.config.ip t
            = (getRegister e.config e.config.ip s + h.ipIncrement) % 2 ^ e.config.registerBitWidth % e.config.numMemoryAddresses)
      ∧ (lookup e.config (getRegister e.config e.config.is s) = none →
          getRegister e.config e.config.ip t
            = (getRegister e.config e.config.ip s + 1) % 2 ^ e.config.registerBitWidth % e.config.numMemoryAddresses)
      ∧ SameRegistersExcept e.config [e.config.ip] s t ∧ SameMemory e.config s t
      ∧ t.isHalted = false ∧ t.periph = s.periph ∧ t.pipelineStep = 2 ∧ t.executionStep = s.executionStep

/-- R171, and spec/95_test_vectors.md P5 item 6: an unresolved opcode halts the machine two steps after its fetch, with the
evidence the rule lists and no other change. That the halting cycle is counted is the spec's decision D11 (log entry 20). -/
def Obligations.UnresolvedOpcodeHaltsTheMachine : Prop :=
  ∀ (P : Type) (e : Engine P) (s : State P) (op : Nat), e.WellFormed → e.pipeline = none → e.config.unresolvedExecute = .halt →
    Inv e s → s.isHalted = false → s.pipelineStep = 0 →
    op = getMemory e.config (getRegister e.config e.config.ip s) s % 2 ^ e.config.registerBitWidth → lookup e.config op = none →
    (∃ u : State P, engineSteps e 2 s = .next u ∧ u.isHalted = false)
    ∧ ∃ t : State P, engineSteps e 3 s = .next t ∧ t.isHalted = true
      ∧ getRegister e.config e.config.is t = op
      ∧ getRegister e.config e.config.ip t
          = (getRegister e.config e.config.ip s + 1) % 2 ^ e.config.registerBitWidth % e.config.numMemoryAddresses
      ∧ SameRegistersExcept e.config [e.config.is, e.config.ip] s t ∧ SameMemory e.config s t ∧ t.periph = s.periph
      ∧ t.pipelineStep = 0 ∧ t.executionStep = s.executionStep + 1

/-- R143, the variant of the spec's decision D10 (log entry 19): under UNRESOLVED_EXECUTE = Nop the same opcode is a one-cell
no-operation and the machine goes on. -/
def Obligations.UnresolvedOpcodeIsANopInTheNopVariant : Prop :=
  ∀ (P : Type) (e : Engine P) (s : State P) (op : Nat), e.WellFormed → e.pipeline = none → e.config.unresolvedExecute = .nop →
    Inv e s → s.isHalted = false → s.pipelineStep = 0 →
    op = getMemory e.config (getRegister e.config e.config.ip s) s % 2 ^ e.config.registerBitWidth → lookup e.config op = none →
    ∃ t : State P, engineSteps e 3 s = .next t ∧ t.isHalted = false
      ∧ getRegister e.config e.config.is t = op
      ∧ getRegister e.config e.config.ip t
          = (getRegister e.config e.config.ip s + 1) % 2 ^ e.config.registerBitWidth % e.config.numMemoryAddresses
      ∧ SameRegistersExcept e.config [e.config.is, e.config.ip] s t ∧ SameMemory e.config s t ∧ t.periph = s.periph
      ∧ t.pipelineStep = 0 ∧ t.executionStep = s.executionStep + 1

/-- R35: every step issued on a halted state returns it unchanged in all six components, however many are issued. R136: `run`
started on a halted state yields nothing, the spec's decision D31 (log entry 24). -/
def Obligations.HaltedMachineIsFrozen : Prop :=
  ∀ (P : Type) (e : Engine P) (k : Nat) (s : State P), s.isHalted = true →
    engineSteps e k s = .next s ∧ ∀ [Decidable e.WellFormed], e.WellFormed → run e k s = []

/-- R138, which the spec marks as derived: the three steps of the default pipeline are the composite of the rule, for every
well-formed engine. That the effect sees phase index 2 is read from R134 (log entry 33). -/
def Obligations.ThreeStepsAreOneCycle : Prop :=
  ∀ (P : Type) (e : Engine P) (s : State P), e.WellFormed → e.pipeline = none → Inv e s → s.isHalted = false →
    s.pipelineStep = 0 →
    engineSteps e 3 s = cycle e s

/-- A step runs the decoded instruction: in the `execute` phase, when IS and the operand cell before IP decode to `i`, the
step is `exec i` on that very state, followed by `advancePipeline`. -/
def Obligations.StepRunsTheDecodedInstruction : Prop :=
  ∀ (s : State) (i : Instr) (rest : List Nat), s.isHalted = false → s.pipelineStep = 2 →
    decode [getRegister ref8 regIS s, getMemory ref8 ((getRegister ref8 regIP s : Int) - 1) s] = .ok (i, rest) →
    ∃ t : State, exec i s = .next t ∧ step s = .next (advancePipeline 3 t)

/-- The same from the cells at IP: when they decode to `i`, three steps run `exec i` on the state in which IS holds the opcode
and IP stands after the instruction. -/
def Obligations.ACycleRunsTheInstructionAtIp : Prop :=
  ∀ (s : State) (i : Instr) (rest : List Nat), Inv ref8Engine s → s.isHalted = false → s.pipelineStep = 0 →
    decode [getMemory ref8 (getRegister ref8 regIP s) s, getMemory ref8 ((getRegister ref8 regIP s : Int) + 1) s] = .ok (i, rest) →
    ∃ u t : State, exec i u = .next t ∧ Inv ref8Engine u
      ∧ getRegister ref8 regIS u = opcodeOf i
      ∧ getRegister ref8 regIP u = (getRegister ref8 regIP s + (encode i).length) % 256
      ∧ SameRegistersExcept ref8 [regIS, regIP] s u ∧ SameMemory ref8 s u ∧ u.isHalted = false ∧ u.periph = s.periph
      ∧ u.pipelineStep = 2 ∧ u.executionStep = s.executionStep
      ∧ Host.Core.run Sys2Proof.core 3 s = .next { t with pipelineStep := 0, executionStep := s.executionStep + 1 }

/-- R151, R152, the effects alone; what REF8's instructions do is the spec's decision D29 (log entry 25). HALT and NOP
complete in every state: the one sets the halt flag, the other nothing, and no other component changes. -/
def Obligations.HaltAndNopComplete : Prop :=
  ∀ s : State,
    (∃ t : State, exec .halt s = .next t ∧ t.isHalted = true
      ∧ SameRegistersExcept ref8 [] s t ∧ SameMemory ref8 s t ∧ SamePosition s t)
    ∧ (∃ t : State, exec .nop s = .next t ∧ t.isHalted = s.isHalted
      ∧ SameRegistersExcept ref8 [] s t ∧ SameMemory ref8 s t ∧ SamePosition s t)

/-- LDR0 and LDR1 complete for every operand: the destination takes the operand modulo 256, nothing else changes. -/
def Obligations.ImmediateLoadsComplete : Prop :=
  ∀ (s : State) (imm : Nat), s.registers.length = 4 →
    (∃ t : State, exec (.ldr0 imm) s = .next t ∧ getRegister ref8 regR0 t = imm % 256
      ∧ SameRegistersExcept ref8 [regR0] s t ∧ SameMemory ref8 s t ∧ t.isHalted = s.isHalted ∧ SamePosition s t)
    ∧ (∃ t : State, exec (.ldr1 imm) s = .next t ∧ getRegister ref8 regR1 t = imm % 256
      ∧ SameRegistersExcept ref8 [regR1] s t ∧ SameMemory ref8 s t ∧ t.isHalted = s.isHalted ∧ SamePosition s t)

/-- LOAD completes for every address: R0 takes the cell there, nothing else changes. -/
def Obligations.LoadCompletes : Prop :=
  ∀ (s : State) (addr : Nat), s.registers.length = 4 →
    ∃ t : State, exec (.load addr) s = .next t ∧ getRegister ref8 regR0 t = getMemory ref8 addr s % 256
      ∧ SameRegistersExcept ref8 [regR0] s t ∧ SameMemory ref8 s t ∧ t.isHalted = s.isHalted ∧ SamePosition s t

/-- STORE completes for every address: the cell there, modulo 256, takes R0; every other cell and component is as before. -/
def Obligations.StoreCompletes : Prop :=
  ∀ (s : State) (addr : Nat),
    ∃ t : State, exec (.store addr) s = .next t ∧ getMemory ref8 addr t = getRegister ref8 regR0 s % 256
      ∧ SameMemoryExcept ref8 addr s t ∧ SameRegistersExcept ref8 [] s t ∧ t.isHalted = s.isHalted ∧ SamePosition s t

/-- ADD and SUB complete: R0 takes the sum or the difference modulo 256, R1 and everything else are as before. -/
def Obligations.AdditionAndSubtractionComplete : Prop :=
  ∀ s : State, s.registers.length = 4 →
    (∃ t : State, exec .add s = .next t
      ∧ (getRegister ref8 regR0 t : Int) = ((getRegister ref8 regR0 s : Int) + getRegister ref8 regR1 s) % 256
      ∧ SameRegistersExcept ref8 [regR0] s t ∧ SameMemory ref8 s t ∧ t.isHalted = s.isHalted ∧ SamePosition s t)
    ∧ (∃ t : State, exec .sub s = .next t
      ∧ (getRegister ref8 regR0 t : Int) = ((getRegister ref8 regR0 s : Int) - getRegister ref8 regR1 s) % 256
      ∧ SameRegistersExcept ref8 [regR0] s t ∧ SameMemory ref8 s t ∧ t.isHalted = s.isHalted ∧ SamePosition s t)

/-- SWAP completes: each of R0 and R1 takes what the other held, everything else is as before. -/
def Obligations.SwapCompletes : Prop :=
  ∀ s : State, s.registers.length = 4 →
    ∃ t : State, exec .swap s = .next t
      ∧ getRegister ref8 regR0 t = getRegister ref8 regR1 s % 256 ∧ getRegister ref8 regR1 t = getRegister ref8 regR0 s % 256
      ∧ SameRegistersExcept ref8 [regR0, regR1] s t ∧ SameMemory ref8 s t ∧ t.isHalted = s.isHalted ∧ SamePosition s t

/-- JMP and JZ complete for every target: IP takes the target modulo 256 (JZ: if R0 is 0, else nothing changes). -/
def Obligations.JumpsComplete : Prop :=
  ∀ (s : State) (target : Nat), s.registers.length = 4 →
    (∃ t : State, exec (.jmp target) s = .next t ∧ getRegister ref8 regIP t = target % 256
      ∧ SameRegistersExcept ref8 [regIP] s t ∧ SameMemory ref8 s t ∧ t.isHalted = s.isHalted ∧ SamePosition s t)
    ∧ (∃ t : State, exec (.jz target) s = .next t
      ∧ getRegister ref8 regIP t = (if getRegister ref8 regR0 s = 0 then target % 256 else getRegister ref8 regIP s)
      ∧ SameRegistersExcept ref8 [regIP] s t ∧ SameMemory ref8 s t ∧ t.isHalted = s.isHalted ∧ SamePosition s t)

/-- R151: one cycle of HALT. This and the eight cycles below state REF8's effects, the spec's decision D29 (log entry 25). -/
def Obligations.HaltCycle : Prop :=
  ∀ s : State, AtOpcode 0 s →
    ∃ t : State, Host.Core.run Sys2Proof.core 3 s = .next t ∧ t.isHalted = true
      ∧ getRegister ref8 regIP t = (getRegister ref8 regIP s + 1) % 256 ∧ SameMemory ref8 s t ∧ CycleOf 0 [] s t

/-- R152: one cycle of NOP. -/
def Obligations.NopCycle : Prop :=
  ∀ s : State, AtOpcode 1 s →
    ∃ t : State, Host.Core.run Sys2Proof.core 3 s = .next t ∧ t.isHalted = false
      ∧ getRegister ref8 regIP t = (getRegister ref8 regIP s + 1) % 256 ∧ SameMemory ref8 s t ∧ CycleOf 1 [] s t

/-- R153, R154: one cycle of LDR0 and of LDR1, the operand across the top of memory included. -/
def Obligations.ImmediateLoadCycles : Prop :=
  ∀ s : State,
    (AtOpcode 17 s → ∃ t : State, Host.Core.run Sys2Proof.core 3 s = .next t ∧ t.isHalted = false
      ∧ getRegister ref8 regR0 t = getMemory ref8 ((getRegister ref8 regIP s : Int) + 1) s
      ∧ getRegister ref8 regIP t = (getRegister ref8 regIP s + 2) % 256 ∧ SameMemory ref8 s t ∧ CycleOf 17 [regR0] s t)
    ∧ (AtOpcode 18 s → ∃ t : State, Host.Core.run Sys2Proof.core 3 s = .next t ∧ t.isHalted = false
      ∧ getRegister ref8 regR1 t = getMemory ref8 ((getRegister ref8 regIP s : Int) + 1) s
      ∧ getRegister ref8 regIP t = (getRegister ref8 regIP s + 2) % 256 ∧ SameMemory ref8 s t ∧ CycleOf 18 [regR1] s t)

/-- R155: one cycle of LOAD. -/
def Obligations.LoadCycle : Prop :=
  ∀ s : State, AtOpcode 19 s →
    ∃ t : State, Host.Core.run Sys2Proof.core 3 s = .next t ∧ t.isHalted = false
      ∧ getRegister ref8 regR0 t = getMemory ref8 (getMemory ref8 ((getRegister ref8 regIP s : Int) + 1) s) s
      ∧ getRegister ref8 regIP t = (getRegister ref8 regIP s + 2) % 256 ∧ SameMemory ref8 s t ∧ CycleOf 19 [regR0] s t

/-- R156: one cycle of STORE; the address stored to is the operand cell's value before the store. -/
def Obligations.StoreCycle : Prop :=
  ∀ (s : State) (a : Nat), AtOpcode 20 s → a = getMemory ref8 ((getRegister ref8 regIP s : Int) + 1) s →
    ∃ t : State, Host.Core.run Sys2Proof.core 3 s = .next t ∧ t.isHalted = false
      ∧ getMemory ref8 a t = getRegister ref8 regR0 s ∧ SameMemoryExcept ref8 a s t
      ∧ getRegister ref8 regIP t = (getRegister ref8 regIP s + 2) % 256 ∧ CycleOf 20 [] s t

/-- R157, R158: one cycle of ADD and of SUB, computed in unbounded integers and reduced at the write. -/
def Obligations.AdditionAndSubtractionCycles : Prop :=
  ∀ s : State,
    (AtOpcode 21 s → ∃ t : State, Host.Core.run Sys2Proof.core 3 s = .next t ∧ t.isHalted = false
      ∧ (getRegister ref8 regR0 t : Int) = ((getRegister ref8 regR0 s : Int) + getRegister ref8 regR1 s) % 256
      ∧ getRegister ref8 regIP t = (getRegister ref8 regIP s + 1) % 256 ∧ SameMemory ref8 s t ∧ CycleOf 21 [regR0] s t)
    ∧ (AtOpcode 22 s → ∃ t : State, Host.Core.run Sys2Proof.core 3 s = .next t ∧ t.isHalted = false
      ∧ (getRegister ref8 regR0 t : Int) = ((getRegister ref8 regR0 s : Int) - getRegister ref8 regR1 s) % 256
      ∧ getRegister ref8 regIP t = (getRegister ref8 regIP s + 1) % 256 ∧ SameMemory ref8 s t ∧ CycleOf 22 [regR0] s t)

/-- R159: one cycle of SWAP. -/
def Obligations.SwapCycle : Prop :=
  ∀ s : State, AtOpcode 23 s →
    ∃ t : State, Host.Core.run Sys2Proof.core 3 s = .next t ∧ t.isHalted = false
      ∧ getRegister ref8 regR0 t = getRegister ref8 regR1 s ∧ getRegister ref8 regR1 t = getRegister ref8 regR0 s
      ∧ getRegister ref8 regIP t = (getRegister ref8 regIP s + 1) % 256 ∧ SameMemory ref8 s t ∧ CycleOf 23 [regR0, regR1] s t

/-- R160: one cycle of JMP. -/
def Obligations.JmpCycle : Prop :=
  ∀ s : State, AtOpcode 33 s →
    ∃ t : State, Host.Core.run Sys2Proof.core 3 s = .next t ∧ t.isHalted = false
      ∧ getRegister ref8 regIP t = getMemory ref8 ((getRegister ref8 regIP s : Int) + 1) s ∧ SameMemory ref8 s t ∧ CycleOf 33 [] s t

/-- R161: one cycle of JZ, taken when R0 is 0. -/
def Obligations.JzCycle : Prop :=
  ∀ s : State, AtOpcode 34 s →
    ∃ t : State, Host.Core.run Sys2Proof.core 3 s = .next t ∧ t.isHalted = false
      ∧ getRegister ref8 regIP t = (if getRegister ref8 regR0 s = 0 then getMemory ref8 ((getRegister ref8 regIP s : Int) + 1) s
          else (getRegister ref8 regIP s + 2) % 256)
      ∧ SameMemory ref8 s t ∧ CycleOf 34 [] s t

/-- R52, which the spec marks as derived: a STORE to the next instruction's opcode cell is what the next `fetch` reads. -/
def Obligations.StoredCellIsFetchedNext : Prop :=
  ∀ s : State, AtOpcode 20 s →
    getMemory ref8 ((getRegister ref8 regIP s : Int) + 1) s = (getRegister ref8 regIP s + 2) % 256 →
    ∃ t : State, Host.Core.run Sys2Proof.core 4 s = .next t ∧ getRegister ref8 regIS t = getRegister ref8 regR0 s ∧ t.pipelineStep = 1

/-- R69, R162: on REF8U an undocumented opcode takes two cells, does nothing and does not halt. -/
def Obligations.UndocumentedOpcodeRunsItsInstruction : Prop :=
  ∀ (s : State) (op : Nat), Inv ref8UEngine s → s.isHalted = false → s.pipelineStep = 0 →
    op = getMemory ref8U (getRegister ref8U ref8U.ip s) s → 128 ≤ op →
    ∃ t : State, engineSteps ref8UEngine 3 s = .next t ∧ t.isHalted = false
      ∧ getRegister ref8U ref8U.ip t = (getRegister ref8U ref8U.ip s + 2) % 256 ∧ getRegister ref8U ref8U.is t = op
      ∧ SameRegistersExcept ref8U [ref8U.ip, ref8U.is] s t ∧ SameMemory ref8U s t ∧ t.periph = s.periph
      ∧ t.pipelineStep = 0 ∧ t.executionStep = s.executionStep + 1

/-- R119, R181: a peripheral operation that gives a result changes its own peripheral's slot and nothing else. That it is one
the configuration has, a call of any other giving no result, is the model's choice (log entry 32, DESIGN CHOICE); so is that
arguments and values are integers (log entry 7). -/
def Obligations.PeripheralOperationTouchesItsOwnSlot : Prop :=
  ∀ (P : Type) (e : Engine P) (p op : Nat) (args : List Int) (s t : State P) (v : Option Int),
    peripheralCall e p op args s = some (t, v) →
    t.memory = s.memory ∧ t.registers = s.registers ∧ t.isHalted = s.isHalted ∧ t.pipelineStep = s.pipelineStep
    ∧ t.executionStep = s.executionStep
    ∧ (∀ q : Nat, q ≠ p → e.peripherals.slot? q t.periph = e.peripherals.slot? q s.periph)
    ∧ ∃ (σ : Type) (dev : Peripheral σ) (f : List Int → σ → σ × Option Int) (x : σ),
        e.peripherals.device? p = some ⟨σ, dev⟩ ∧ dev.operations[op]? = some f
        ∧ e.peripherals.slot? p s.periph = some ⟨σ, x⟩ ∧ e.peripherals.slot? p t.periph = some ⟨σ, (f args x).1⟩
        ∧ v = (f args x).2

/-- R33, R190, R191: `newState`, and `reset` from any state, leave every cell and register 0, the machine running, both counters 0,
and each peripheral's slot as its `reset` makes it; for REF8 that is `State.reset`. That `reset` is given
in `newState` and in `reset` alike what the configuration says the slot holds before it, never the slot the state held, is the
model's choice (log entry 7); the three scalars are the
spec's decision D6 (log entry 16). -/
def Obligations.ResetReplacesTheWholeState : Prop :=
  (∀ (P : Type) (e : Engine P) [Decidable e.WellFormed] (s : State P), e.WellFormed →
    ∃ t : State P, newState e = .next t ∧ resetState e s = .next t
      ∧ (∀ a : Int, getMemory e.config a t = 0)
      ∧ t.registers.length = e.config.registerNames.length ∧ (∀ r : Register e.config, getRegister e.config r t = 0)
      ∧ t.isHalted = false ∧ t.pipelineStep = 0 ∧ t.executionStep = 0
      ∧ (∀ p : Nat, e.peripherals.slot? p t.periph
          = (e.peripherals.device? p).map fun d => ⟨d.1, d.2.reset d.2.beforeReset⟩))
  ∧ (∀ [Decidable ref8Engine.WellFormed], ref8Engine.WellFormed → newState ref8Engine = .next State.reset)

/-- R193, R194: `bulkLoadMemory` overwrites every cell and nothing else; a list longer than N is refused, the spec's decision
D14 (log entry 11). -/
def Obligations.BulkLoadMemoryOverwritesEveryCell : Prop :=
  ∀ (P : Type) (c : Config) (values : List Int) (s : State P), c.wellFormed = true →
    (values.length ≤ c.numMemoryAddresses → ∃ t : State P, bulkLoadMemory c values s = .next t
      ∧ (∀ a : Nat, a < c.numMemoryAddresses →
          (getMemory c a t : Int) = if a < values.length then (values.getD a 0) % 2 ^ c.memoryBitWidth else 0)
      ∧ t.registers = s.registers ∧ t.isHalted = s.isHalted ∧ SamePosition s t)
    ∧ (c.numMemoryAddresses < values.length → bulkLoadMemory c values s = .refused .tooManyMemoryValues)

/-- R195, its duty the spec's decision D15 (log entry 12): `bulkLoadRegisters` stores the values raw in the order of
`registerNames`, zeros after, and nothing else, exactly when the host's duty holds; otherwise it is refused. -/
def Obligations.BulkLoadRegistersKeepsTheDuty : Prop :=
  ∀ (P : Type) (c : Config) (values : List Int) (s : State P), c.wellFormed = true →
    ((values.length ≤ c.registerNames.length
        ∧ (∀ i : Nat, i < values.length → 0 ≤ values.getD i 0 ∧ values.getD i 0 < 2 ^ c.registerBitWidth)
        ∧ (c.ip.val < values.length → values.getD c.ip.val 0 < (c.numMemoryAddresses : Int))) →
      ∃ t : State P, bulkLoadRegisters c values s = .next t
        ∧ (∀ r : Register c, (getRegister c r t : Int) = values.getD r.val 0)
        ∧ t.registers.length = c.registerNames.length
        ∧ t.memory = s.memory ∧ t.isHalted = s.isHalted ∧ SamePosition s t)
    ∧ (¬ (values.length ≤ c.registerNames.length
        ∧ (∀ i : Nat, i < values.length → 0 ≤ values.getD i 0 ∧ values.getD i 0 < 2 ^ c.registerBitWidth)
        ∧ (c.ip.val < values.length → values.getD c.ip.val 0 < (c.numMemoryAddresses : Int))) →
      bulkLoadRegisters c values s = .refused .registerValuesOutOfDuty)

/-- R206, which the spec marks as derived, on LDR0: after `fetch`, a host write to the operand cell is seen by the rest of the
instruction, and one to the opcode cell is not. -/
def Obligations.HostWritesBetweenPhasesOfALoad : Prop :=
  ∀ (s : State) (v : Int), AtOpcode 17 s →
    ∃ u : State, Host.Core.run Sys2Proof.core 1 s = .next u
      ∧ (∃ t : State, Host.Core.run Sys2Proof.core 2 (setMemory ref8 ((getRegister ref8 regIP s : Int) + 1) v u) = .next t
        ∧ (getRegister ref8 regR0 t : Int) = v % 256)
      ∧ (∃ t : State, Host.Core.run Sys2Proof.core 2 (setMemory ref8 (getRegister ref8 regIP s) v u) = .next t
        ∧ getRegister ref8 regR0 t = getMemory ref8 ((getRegister ref8 regIP s : Int) + 1) s)

/-- R136: what `run` hands the host is the states of repeated `step`, one a pull, each pulled from a machine that is not
halted, until the machine is halted; on a halted machine it hands nothing. The bound on the pulls is the model's choice (log
entry 24). -/
def Obligations.RunIsRepeatedStep : Prop :=
  ∀ (P : Type) (e : Engine P) [Decidable e.WellFormed] (k : Nat) (s : State P), e.WellFormed → Inv e s →
    (run e k s).length ≤ k
    ∧ (∀ i : Nat, i < (run e k s).length → (run e k s)[i]? = some (engineSteps e (i + 1) s)
        ∧ ∃ u : State P, engineSteps e i s = .next u ∧ u.isHalted = false)
    ∧ ((run e k s).length < k → ∃ t : State P, engineSteps e (run e k s).length s = .next t ∧ t.isHalted = true)

/-- R117, R134 and R210, the last of which the spec marks as derived, and spec/95_test_vectors.md P5 item 4: a running step moves
the phase index on modulo L and counts a cycle at the return to 0; `k` running steps from any state that meets the invariants,
with any program and any pipeline, move both by `k`; from a new state they are `k mod L` and `k div L`. -/
def Obligations.StepsCountThePipeline : Prop :=
  (∀ (P : Type) (e : Engine P) (s t : State P), e.WellFormed → Inv e s → s.isHalted = false → engineStep e s = .next t →
    t.pipelineStep = (s.pipelineStep + 1) % e.length
    ∧ t.executionStep = if (s.pipelineStep + 1) % e.length = 0 then s.executionStep + 1 else s.executionStep)
  ∧ (∀ (P : Type) (e : Engine P) (k : Nat) (s t : State P), e.WellFormed → Inv e s → engineSteps e k s = .next t →
    (∀ j : Nat, j < k → ∀ u : State P, engineSteps e j s = .next u → u.isHalted = false) →
    t.pipelineStep = (s.pipelineStep + k) % e.length
    ∧ t.executionStep = s.executionStep + (s.pipelineStep + k) / e.length)
  ∧ (∀ (P : Type) (e : Engine P) [Decidable e.WellFormed] (k : Nat) (s t : State P), newState e = .next s →
    engineSteps e k s = .next t →
    (∀ j : Nat, j < k → ∀ u : State P, engineSteps e j s = .next u → u.isHalted = false) →
    t.pipelineStep = k % e.length ∧ t.executionStep = k / e.length)

/-- R89: the source's assembly examples, for every mnemonic map that has the mnemonics they use. -/
def Obligations.AssemblerReproducesTheSourceExamples : Prop :=
  ∀ (b : Bases) (m : List (Text × Nat)),
    (m.lookup "LDR0".toList = some 17 → m.lookup "5".toList = none →
      assemble b m "LDR0 5".toList = .ok [17, 5] (sourceMap b "LDR0 5".toList))
    ∧ (m.lookup "JMP".toList = some 33 → m.lookup "HALT".toList = some 0 →
      assemble b m "JMP LOOP\nLOOP: HALT".toList = .ok [33, 2, 0] (sourceMap b "JMP LOOP\nLOOP: HALT".toList))
    ∧ (m.lookup "FOO".toList = none → assemble b m "FOO".toList = .error "FOO".toList 0)

/-- R77 to R83, R85: a source that assembles gives exactly one value for each operand token, that which the token resolves to
against the labels of the entire source; and what a token resolves to, in this order: a label's address, a mnemonic's opcode,
the code of a quoted single character (of one UTF-16 code unit), the value of a run of decimal digits, nothing. -/
def Obligations.AssemblerEmitsOneValuePerOperandToken : Prop :=
  (∀ (b : Bases) (m : List (Text × Nat)) (source : Text) (values : List Nat) (map : List (Nat × Nat × Nat)),
    assemble b m source = .ok values map →
    values.length = (operandTokens source).length
    ∧ (∀ i : Nat, values[i]? = ((operandTokens source)[i]?).bind fun t => resolveToken (labels source) m t.text)
    ∧ map = sourceMap b source)
  ∧ (∀ (l m : List (Text × Nat)) (t : Text),
    (∀ a : Nat, l.lookup t = some a → resolveToken l m t = some a)
    ∧ (∀ op : Nat, l.lookup t = none → m.lookup t = some op → resolveToken l m t = some op)
    ∧ (∀ x : Char, l.lookup t = none → m.lookup t = none → t = ['\'', x, '\''] → x.toNat < 65536 →
        resolveToken l m t = some x.toNat)
    ∧ (l.lookup t = none → m.lookup t = none → t ≠ [] → (∀ x ∈ t, 48 ≤ x.toNat ∧ x.toNat ≤ 57) →
        resolveToken l m t = some (Nat.ofDigits 10 (t.reverse.map fun x => x.toNat - 48)))
    ∧ (l.lookup t = none → m.lookup t = none → (∀ x : Char, t ≠ ['\'', x, '\'']) →
        ¬ (t ≠ [] ∧ ∀ x ∈ t, 48 ≤ x.toNat ∧ x.toNat ≤ 57) → resolveToken l m t = none))

/-- R82: the failing token is the first operand token, by its zero-based operand position, that resolves to nothing. -/
def Obligations.AssemblerReportsTheFirstUnresolvableToken : Prop :=
  ∀ (b : Bases) (m : List (Text × Nat)) (source token : Text) (p : Nat),
    assemble b m source = .error token p ↔
      ((labels source).map Prod.fst).Nodup
      ∧ (∃ t : Token, (operandTokens source)[p]? = some t ∧ t.text = token ∧ resolveToken (labels source) m token = none)
      ∧ (∀ (q : Nat) (t : Token), q < p → (operandTokens source)[q]? = some t →
          resolveToken (labels source) m t.text ≠ none)

/-- R76: a label's address is the count of operand tokens strictly before its definition, and every definition is collected. -/
def Obligations.LabelAddressCountsOperandTokensBefore : Prop :=
  ∀ (source name : Text) (p : Nat), (name, p) ∈ labels source ↔
    ∃ (before after : List Token) (d : Token), tokens source = before ++ d :: after
      ∧ isLabelDefinition d.text = true ∧ labelName d.text = name
      ∧ p = (before.filter fun t => !isLabelDefinition t.text).length

/-- R84: a source that defines one label name twice is refused, the spec's decision D26 (log entry 15), and no other is. -/
def Obligations.DuplicateLabelsAreRefused : Prop :=
  ∀ (b : Bases) (m : List (Text × Nat)) (source : Text),
    assemble b m source = .refusedDuplicateLabel ↔ ¬ ((labels source).map Prod.fst).Nodup

/-- R72 to R75, R87, R88: the source map has one entry per operand token, keyed by its emission index, with the token's line and
column counted from the open bases; the operand tokens are the tokens that are no label definition; the tokens are, in the order of
the text, exactly the runs of characters that stand in it as `TokenAt` says; the lines are the text cut at each line feed; and a
comment is cut off at the first two slashes of its line. -/
def Obligations.SourceMapPlacesEveryOperandToken : Prop :=
  (∀ (b : Bases) (source : Text) (i : Nat),
    (sourceMap b source)[i]? = ((operandTokens source)[i]?).map fun t => (i, t.line + b.line.val, t.col + b.col.val))
  ∧ (∀ source : Text, operandTokens source = (tokens source).filter fun t => !isLabelDefinition t.text)
  ∧ (∀ (source : Text) (t : Token), t ∈ tokens source ↔ TokenAt source t)
  ∧ (∀ source : Text, (tokens source).Pairwise fun t u => t.line < u.line ∨ (t.line = u.line ∧ t.col < u.col))
  ∧ (∀ source : Text, source = ['\n'].intercalate (splitLines source) ∧ ∀ l ∈ splitLines source, '\n' ∉ l)
  ∧ (∀ l : Text, ∃ rest : Text, l = stripComment l ++ rest ∧ (rest = [] ∨ ∃ r : Text, rest = '/' :: '/' :: r)
    ∧ ¬ ['/', '/'] <:+: stripComment l ++ rest.take 1)

/-- R150, R162, R163: the reference configurations are well formed, their effects within the contract of R120. R13, R17, R120 and
duty H1 of R201: an engine that is not well formed, be it by its table, its resolver, its effects or its custom phases, is refused
by `newState`, `reset`, the boot sequence, `run`, `assembleFor` and every other transaction; the evidence they ask for is the
model's choice (log entry 27). -/
def Obligations.ReferenceConfigurationsAreWellFormed : Prop :=
  (ref8Engine.WellFormed ∧ ref8UEngine.WellFormed ∧ ref8NEngine.WellFormed
    ∧ (bareEngine ref4).WellFormed ∧ (bareEngine odd10).WellFormed ∧ (bareEngine narrow3).WellFormed)
  ∧ ∀ (P : Type) (e : Engine P) [Decidable e.WellFormed] (s : State P), ¬ e.WellFormed →
    newState e = .refused .illFormedConfiguration ∧ resetState e s = .refused .illFormedConfiguration
    ∧ (∀ tr : Transaction, transact e tr s = .refused .illFormedConfiguration)
    ∧ (∀ k : Nat, run e k s = [.refused .illFormedConfiguration])
    ∧ (∀ (b : Bases) (source : Text), assembleFor e b source = .error .illFormedConfiguration)
    ∧ ∀ (program : List Int) (registers : Option (List Int)), boot e program registers = .refused .illFormedConfiguration

/-- The invariants of R34 hold right after reset. -/
def Obligations.ResetMeetsTheInvariants : Prop :=
  Inv ref8Engine State.reset

/-- R34: every step of the machine keeps the invariants of R34, from every state that meets them. -/
def Obligations.EveryStepKeepsTheInvariants : Prop :=
  ∀ s t : State, Inv ref8Engine s → step s = .next t → Inv ref8Engine t

/-- R34: the same for every well-formed engine, custom pipelines, resolvers and peripherals included, and such a step never
faults nor is refused: it answers a next state. -/
def Obligations.EveryEngineStepAnswersAndKeepsTheInvariants : Prop :=
  ∀ (P : Type) (e : Engine P) (s : State P), e.WellFormed → Inv e s → ∃ t : State P, engineStep e s = .next t ∧ Inv e t

/-- R34: the invariants hold in every state that the host can reach from `newState` by the transactions, and no transaction but
`reset` makes a halted machine run again. -/
def Obligations.InvariantsHoldInEveryReachableState : Prop :=
  ∀ (P : Type) (e : Engine P) [Decidable e.WellFormed] (s : State P), HostReachable e s →
    Inv e s
    ∧ ∀ (tr : Transaction) (t : State P) (r : Reply P), transact e tr s = .next (t, r) → s.isHalted = true → tr ≠ .reset →
        t.isHalted = true

/-- R34, R202: the state that `newState` answers meets the invariants; every transaction of the host, from every state that meets
them, leaves one that meets them; and from any state at all a transaction that is no `reset` leaves a halted machine halted (I5). -/
def Obligations.EveryTransactionKeepsTheInvariants : Prop :=
  ∀ (P : Type) (e : Engine P) [Decidable e.WellFormed],
    (∀ s : State P, newState e = .next s → Inv e s)
    ∧ (∀ (tr : Transaction) (s t : State P) (r : Reply P), Inv e s → transact e tr s = .next (t, r) → Inv e t)
    ∧ (∀ (tr : Transaction) (s t : State P) (r : Reply P), transact e tr s = .next (t, r) → s.isHalted = true → tr ≠ .reset →
        t.isHalted = true)
end

