-- ==== Sys2Proof/Laws/Arith.lean ====
section
/-! SUPPORT. What the arithmetic constraints answer, said once each. -/

namespace Sys2Proof.Machine

theorem two_pow_pos_int (w : Nat) : (0 : Int) < 2 ^ w := by positivity

/-- A constrained register value, read back as an integer. -/
theorem constrainRegisterValue_cast (w : Nat) (v : Int) :
    (constrainRegisterValue w v : Int) = v % 2 ^ w := by
  unfold constrainRegisterValue
  exact Int.toNat_of_nonneg (Int.emod_nonneg _ (two_pow_pos_int w).ne')

/-- A constrained memory value, read back as an integer. -/
theorem constrainMemoryValue_cast (w : Nat) (v : Int) :
    (constrainMemoryValue w v : Int) = v % 2 ^ w :=
  constrainRegisterValue_cast w v

/-- A wrapped address, read back as an integer. -/
theorem constrainAddress_cast {n : Nat} (hn : 1 ≤ n) (v : Int) :
    (constrainAddress n v : Int) = v % (n : Int) := by
  unfold constrainAddress
  exact Int.toNat_of_nonneg (Int.emod_nonneg _ (by omega))

theorem constrainRegisterValue_lt (w : Nat) (v : Int) : constrainRegisterValue w v < 2 ^ w := by
  have h := Int.emod_lt_of_pos v (two_pow_pos_int w)
  rw [← constrainRegisterValue_cast] at h
  exact_mod_cast h

theorem constrainMemoryValue_lt (w : Nat) (v : Int) : constrainMemoryValue w v < 2 ^ w :=
  constrainRegisterValue_lt w v

theorem constrainAddress_lt {n : Nat} (hn : 1 ≤ n) (v : Int) : constrainAddress n v < n := by
  have h := Int.emod_lt_of_pos v (show (0 : Int) < n by omega)
  rw [← constrainAddress_cast hn] at h
  exact_mod_cast h

/-- On a natural number the mask is the remainder. -/
@[simp] theorem constrainRegisterValue_natCast (w v : Nat) : constrainRegisterValue w (v : Int) = v % 2 ^ w := by
  have h := constrainRegisterValue_cast w (v : Int)
  exact_mod_cast h

@[simp] theorem constrainMemoryValue_natCast (w v : Nat) : constrainMemoryValue w (v : Int) = v % 2 ^ w :=
  constrainRegisterValue_natCast w v

@[simp] theorem constrainAddress_natCast (n v : Nat) : constrainAddress n (v : Int) = v % n := by
  unfold constrainAddress
  exact_mod_cast Int.toNat_natCast (v % n)

/-- Two integers wrap to one address exactly when their remainders agree. -/
theorem constrainAddress_eq_iff {n : Nat} (hn : 1 ≤ n) (a b : Int) :
    constrainAddress n a = constrainAddress n b ↔ a % (n : Int) = b % (n : Int) := by
  rw [← constrainAddress_cast hn, ← constrainAddress_cast hn]
  exact Int.natCast_inj.symm

/-- What IP takes is below N and below `2^REGW`. -/
theorem wrapIP_lt (c : Config) (hn : 1 ≤ c.numMemoryAddresses) (v : Int) :
    wrapIP c v < c.numMemoryAddresses ∧ wrapIP c v < 2 ^ c.registerBitWidth := by
  refine ⟨constrainAddress_lt hn _, ?_⟩
  unfold wrapIP
  rw [constrainAddress_natCast]
  exact lt_of_le_of_lt (Nat.mod_le _ _) (constrainRegisterValue_lt _ _)

end Sys2Proof.Machine
end

