-- ==== Sys2Proof/Laws/State.lean ====
section
/-! SUPPORT. One lemma per field per update of the state, each true by rfl, so that no proof unfolds a record update. -/

namespace Sys2Proof.Machine

variable {P : Type}

@[simp] theorem setHalt_memory (s : State P) : (setHalt s).memory = s.memory := rfl
@[simp] theorem setHalt_registers (s : State P) : (setHalt s).registers = s.registers := rfl
@[simp] theorem setHalt_periph (s : State P) : (setHalt s).periph = s.periph := rfl
@[simp] theorem setHalt_isHalted (s : State P) : (setHalt s).isHalted = true := rfl
@[simp] theorem setHalt_pipelineStep (s : State P) : (setHalt s).pipelineStep = s.pipelineStep := rfl
@[simp] theorem setHalt_executionStep (s : State P) : (setHalt s).executionStep = s.executionStep := rfl

@[simp] theorem setRegister_memory (c : Config) (r : Register c) (v : Int) (s : State P) :
    (setRegister c r v s).memory = s.memory := rfl
@[simp] theorem setRegister_periph (c : Config) (r : Register c) (v : Int) (s : State P) :
    (setRegister c r v s).periph = s.periph := rfl
@[simp] theorem setRegister_isHalted (c : Config) (r : Register c) (v : Int) (s : State P) :
    (setRegister c r v s).isHalted = s.isHalted := rfl
@[simp] theorem setRegister_pipelineStep (c : Config) (r : Register c) (v : Int) (s : State P) :
    (setRegister c r v s).pipelineStep = s.pipelineStep := rfl
@[simp] theorem setRegister_executionStep (c : Config) (r : Register c) (v : Int) (s : State P) :
    (setRegister c r v s).executionStep = s.executionStep := rfl

@[simp] theorem setMemory_registers (c : Config) (a v : Int) (s : State P) :
    (setMemory c a v s).registers = s.registers := rfl
@[simp] theorem setMemory_periph (c : Config) (a v : Int) (s : State P) :
    (setMemory c a v s).periph = s.periph := rfl
@[simp] theorem setMemory_isHalted (c : Config) (a v : Int) (s : State P) :
    (setMemory c a v s).isHalted = s.isHalted := rfl
@[simp] theorem setMemory_pipelineStep (c : Config) (a v : Int) (s : State P) :
    (setMemory c a v s).pipelineStep = s.pipelineStep := rfl
@[simp] theorem setMemory_executionStep (c : Config) (a v : Int) (s : State P) :
    (setMemory c a v s).executionStep = s.executionStep := rfl

@[simp] theorem advancePipeline_memory (n : Nat) (s : State P) : (advancePipeline n s).memory = s.memory := rfl
@[simp] theorem advancePipeline_registers (n : Nat) (s : State P) : (advancePipeline n s).registers = s.registers := rfl
@[simp] theorem advancePipeline_periph (n : Nat) (s : State P) : (advancePipeline n s).periph = s.periph := rfl
@[simp] theorem advancePipeline_isHalted (n : Nat) (s : State P) : (advancePipeline n s).isHalted = s.isHalted := rfl
@[simp] theorem advancePipeline_pipelineStep (n : Nat) (s : State P) :
    (advancePipeline n s).pipelineStep = (s.pipelineStep + 1) % n := rfl
@[simp] theorem advancePipeline_executionStep (n : Nat) (s : State P) :
    (advancePipeline n s).executionStep =
      if (s.pipelineStep + 1) % n = 0 then s.executionStep + 1 else s.executionStep := rfl

@[simp] theorem fetch_memory (c : Config) (s : State P) : (fetch c s).memory = s.memory := rfl
@[simp] theorem fetch_periph (c : Config) (s : State P) : (fetch c s).periph = s.periph := rfl
@[simp] theorem fetch_isHalted (c : Config) (s : State P) : (fetch c s).isHalted = s.isHalted := rfl
@[simp] theorem fetch_pipelineStep (c : Config) (s : State P) : (fetch c s).pipelineStep = s.pipelineStep := rfl
@[simp] theorem fetch_executionStep (c : Config) (s : State P) : (fetch c s).executionStep = s.executionStep := rfl

@[simp] theorem increment_memory (c : Config) (s : State P) : (increment c s).memory = s.memory := rfl
@[simp] theorem increment_periph (c : Config) (s : State P) : (increment c s).periph = s.periph := rfl
@[simp] theorem increment_isHalted (c : Config) (s : State P) : (increment c s).isHalted = s.isHalted := rfl
@[simp] theorem increment_pipelineStep (c : Config) (s : State P) : (increment c s).pipelineStep = s.pipelineStep := rfl
@[simp] theorem increment_executionStep (c : Config) (s : State P) : (increment c s).executionStep = s.executionStep := rfl

/-- Registers are read from the register file alone. -/
theorem getRegister_congr {s t : State P} (h : t.registers = s.registers) (c : Config) (r : Register c) :
    getRegister c r t = getRegister c r s := by
  simp [getRegister, h]

/-- Cells are read from the memory alone. -/
theorem getMemory_congr {s t : State P} (h : t.memory = s.memory) (c : Config) (a : Int) :
    getMemory c a t = getMemory c a s := by
  simp [getMemory, h]

@[simp] theorem getRegister_setMemory (c d : Config) (a v : Int) (s : State P) (r : Register d) :
    getRegister d r (setMemory c a v s) = getRegister d r s := rfl
@[simp] theorem getRegister_setHalt (d : Config) (s : State P) (r : Register d) :
    getRegister d r (setHalt s) = getRegister d r s := rfl
@[simp] theorem getRegister_advancePipeline (d : Config) (n : Nat) (s : State P) (r : Register d) :
    getRegister d r (advancePipeline n s) = getRegister d r s := rfl
@[simp] theorem getMemory_setRegister (c d : Config) (r : Register c) (v : Int) (s : State P) (a : Int) :
    getMemory d a (setRegister c r v s) = getMemory d a s := rfl
@[simp] theorem getMemory_setHalt (d : Config) (s : State P) (a : Int) :
    getMemory d a (setHalt s) = getMemory d a s := rfl
@[simp] theorem getMemory_advancePipeline (d : Config) (n : Nat) (s : State P) (a : Int) :
    getMemory d a (advancePipeline n s) = getMemory d a s := rfl
@[simp] theorem getMemory_fetch (c d : Config) (s : State P) (a : Int) :
    getMemory d a (fetch c s) = getMemory d a s := rfl
@[simp] theorem getMemory_increment (c d : Config) (s : State P) (a : Int) :
    getMemory d a (increment c s) = getMemory d a s := rfl

end Sys2Proof.Machine
end

