-- ==== Sys2Proof/Laws/Memory.lean ====
section
/-! SUPPORT. The laws of memory: a read after a write, and that every operation keeps the canonical form. -/

namespace Sys2Proof.Machine

variable {P : Type}

/-- Erasing an address makes it read 0 and leaves every other. -/
theorem Memory.read_erase (m : Memory) (a b : Nat) :
    Memory.read (Memory.erase m a) b = if b = a then 0 else Memory.read m b := by
  induction m with
  | nil => simp [Memory.erase, Memory.read]
  | cons p m ih =>
    obtain ⟨x, v⟩ := p
    unfold Memory.erase at ih ⊢
    by_cases hx : x = a
    · subst hx
      simp only [List.filter_cons, bne_self_eq_false, Bool.false_eq_true, if_false, ih, Memory.read]
      split <;> rfl
    · simp only [List.filter_cons, bne_iff_ne, ne_eq, hx, not_false_eq_true, if_true, Memory.read, ih]
      by_cases hb : b = x
      · subst hb; simp [hx]
      · simp [hb]

/-- Inserting at an address that is not listed makes it read the value and leaves every other. -/
theorem Memory.read_insert (m : Memory) (a v b : Nat) (h : ∀ p ∈ m, p.1 ≠ a) :
    Memory.read (Memory.insert m a v) b = if b = a then v else Memory.read m b := by
  induction m with
  | nil => simp [Memory.insert, Memory.read]
  | cons p m ih =>
    obtain ⟨x, w⟩ := p
    have hx : x ≠ a := h (x, w) (by simp)
    have hm : ∀ p ∈ m, p.1 ≠ a := fun p hp => h p (by simp [hp])
    unfold Memory.insert
    split
    · simp [Memory.read]
    · simp only [Memory.read, ih hm]
      by_cases hb : b = x
      · subst hb; simp [hx]
      · simp [hb]

theorem Memory.erase_ne (m : Memory) (a : Nat) : ∀ p ∈ Memory.erase m a, p.1 ≠ a := by
  intro p hp
  simpa [Memory.erase] using (List.mem_filter.mp hp).2

/-- A read after a write, for every memory. -/
theorem Memory.read_write (m : Memory) (a v b : Nat) :
    Memory.read (Memory.write m a v) b = if b = a then v else Memory.read m b := by
  unfold Memory.write
  split
  · subst v; exact Memory.read_erase m a b
  · rw [Memory.read_insert _ _ _ _ (Memory.erase_ne m a), Memory.read_erase]
    split <;> rfl

/-- The canonical form from a lower address on holds from a higher one when nothing is listed between. -/
theorem Memory.wfFrom_mono {n w lo hi : Nat} (h : lo ≤ hi) (m : Memory) :
    Memory.wfFrom n w hi m = true → Memory.wfFrom n w lo m = true := by
  cases m with
  | nil => intro _; rfl
  | cons p m =>
    obtain ⟨x, v⟩ := p
    simp only [Memory.wfFrom, Bool.and_eq_true, decide_eq_true_eq]
    rintro ⟨⟨⟨⟨h1, h2⟩, h3⟩, h4⟩, h5⟩
    exact ⟨⟨⟨⟨by omega, h2⟩, h3⟩, h4⟩, h5⟩

theorem Memory.wfFrom_erase (n w : Nat) (a : Nat) (m : Memory) (lo : Nat) :
    Memory.wfFrom n w lo m = true → Memory.wfFrom n w lo (Memory.erase m a) = true := by
  induction m generalizing lo with
  | nil => intro h; exact h
  | cons p m ih =>
    obtain ⟨x, v⟩ := p
    simp only [Memory.wfFrom, Bool.and_eq_true, decide_eq_true_eq]
    rintro ⟨⟨⟨⟨h1, h2⟩, h3⟩, h4⟩, h5⟩
    have ih' := ih (x + 1) h5
    unfold Memory.erase at ih' ⊢
    by_cases hx : x = a
    · simp only [List.filter_cons, hx, bne_self_eq_false, Bool.false_eq_true, if_false]
      rw [hx] at ih'
      exact Memory.wfFrom_mono (by omega) _ ih'
    · simp only [List.filter_cons, bne_iff_ne, ne_eq, hx, not_false_eq_true, if_true, Memory.wfFrom,
        Bool.and_eq_true, decide_eq_true_eq]
      exact ⟨⟨⟨⟨h1, h2⟩, h3⟩, h4⟩, ih'⟩

theorem Memory.wfFrom_insert {n w a v : Nat} (ha : a < n) (hv : v ≠ 0) (hw : v < 2 ^ w) (m : Memory) (lo : Nat)
    (hlo : lo ≤ a) (hne : ∀ p ∈ m, p.1 ≠ a) :
    Memory.wfFrom n w lo m = true → Memory.wfFrom n w lo (Memory.insert m a v) = true := by
  induction m generalizing lo with
  | nil => intro _; simp [Memory.insert, Memory.wfFrom, hlo, ha, hv, hw]
  | cons p m ih =>
    obtain ⟨x, y⟩ := p
    have hx : x ≠ a := hne (x, y) (by simp)
    have hm : ∀ p ∈ m, p.1 ≠ a := fun p hp => hne p (by simp [hp])
    simp only [Memory.wfFrom, Bool.and_eq_true, decide_eq_true_eq]
    rintro ⟨⟨⟨⟨h1, h2⟩, h3⟩, h4⟩, h5⟩
    unfold Memory.insert
    split
    · simp only [Memory.wfFrom, Bool.and_eq_true, decide_eq_true_eq]
      exact ⟨⟨⟨⟨hlo, ha⟩, hv⟩, hw⟩, ⟨⟨⟨by omega, h2⟩, h3⟩, h4⟩, h5⟩
    · simp only [Memory.wfFrom, Bool.and_eq_true, decide_eq_true_eq]
      exact ⟨⟨⟨⟨h1, h2⟩, h3⟩, h4⟩, ih (x + 1) (by omega) hm h5⟩

/-- A write of a value in range at an address in range keeps the canonical form. -/
theorem Memory.wf_write {n w a v : Nat} (m : Memory) (ha : a < n) (hv : v < 2 ^ w) :
    Memory.wf n w m = true → Memory.wf n w (Memory.write m a v) = true := by
  intro h
  unfold Memory.wf Memory.write at *
  have he := Memory.wfFrom_erase n w a m 0 h
  split
  · exact he
  · rename_i h0
    exact Memory.wfFrom_insert ha h0 hv _ 0 (Nat.zero_le _) (Memory.erase_ne m a) he

/-- A cell added below, where nothing is listed at its address. -/
theorem Memory.read_below (m : Memory) (a v b : Nat) (h : Memory.read m a = 0) :
    Memory.read (Memory.below a v m) b = if b = a then v else Memory.read m b := by
  unfold Memory.below
  split
  · rename_i h0
    by_cases hb : b = a
    · subst hb; simp [h, h0]
    · simp [hb]
  · simp [Memory.read]

/-- The cells of a memory made of a list: the masked value inside the list, 0 outside. -/
theorem Memory.read_ofValues (w : Nat) (vs : List Int) (a b : Nat) :
    Memory.read (Memory.ofValues w a vs) b =
      if a ≤ b ∧ b < a + vs.length then constrainMemoryValue w (vs.getD (b - a) 0) else 0 := by
  induction vs generalizing a b with
  | nil => simp [Memory.ofValues, Memory.read]
  | cons v vs ih =>
    have hcons : Memory.read (Memory.ofValues w a (v :: vs)) b =
        if b = a then constrainMemoryValue w v else Memory.read (Memory.ofValues w (a + 1) vs) b :=
      Memory.read_below (Memory.ofValues w (a + 1) vs) a _ b (by simp [ih])
    rw [hcons, ih]
    by_cases hb : b = a
    · subst hb; simp
    · simp only [hb, if_false, List.length_cons]
      by_cases h : a ≤ b ∧ b < a + (vs.length + 1)
      · obtain ⟨d, rfl⟩ : ∃ d, b = a + 1 + d := ⟨b - (a + 1), by omega⟩
        have h' : a + 1 ≤ a + 1 + d ∧ a + 1 + d < a + 1 + vs.length := by omega
        rw [if_pos h, if_pos h', show a + 1 + d - (a + 1) = d by omega, show a + 1 + d - a = d + 1 by omega]
        rfl
      · have h' : ¬ (a + 1 ≤ b ∧ b < a + 1 + vs.length) := by omega
        rw [if_neg h', if_neg h]

theorem Memory.wfFrom_ofValues {n w : Nat} (vs : List Int) (a : Nat) (h : a + vs.length ≤ n) :
    Memory.wfFrom n w a (Memory.ofValues w a vs) = true := by
  induction vs generalizing a with
  | nil => rfl
  | cons v vs ih =>
    have hl : a + 1 + vs.length ≤ n := by
      rw [List.length_cons] at h; omega
    have ih' := ih (a + 1) hl
    show Memory.wfFrom n w a (Memory.below a (constrainMemoryValue w v) (Memory.ofValues w (a + 1) vs)) = true
    unfold Memory.below
    split
    · exact Memory.wfFrom_mono (by omega) _ ih'
    · rename_i h0
      simp only [Memory.wfFrom, Bool.and_eq_true, decide_eq_true_eq]
      exact ⟨⟨⟨⟨le_refl _, by omega⟩, h0⟩, constrainMemoryValue_lt w v⟩, ih'⟩

/-- A memory made of a list that fits is canonical. -/
theorem Memory.wf_ofValues {n w : Nat} (vs : List Int) (h : vs.length ≤ n) :
    Memory.wf n w (Memory.ofValues w 0 vs) = true :=
  Memory.wfFrom_ofValues vs 0 (by omega)

/-- A canonical memory reads a value in range everywhere. -/
theorem Memory.read_lt {n w : Nat} (m : Memory) (lo a : Nat) (h : Memory.wfFrom n w lo m = true) :
    Memory.read m a < 2 ^ w := by
  induction m generalizing lo with
  | nil => simp [Memory.read]
  | cons p m ih =>
    obtain ⟨x, v⟩ := p
    simp only [Memory.wfFrom, Bool.and_eq_true, decide_eq_true_eq] at h
    simp only [Memory.read]
    split
    · exact h.1.2
    · exact ih (x + 1) h.2

/-- Reset's memory is canonical. -/
theorem reset_memory_wf : Memory.wf 256 8 State.reset.memory = true := rfl

/-- What `getMemory` reads after `setMemory`, whatever the state. -/
theorem getMemory_setMemory (c : Config) (a v b : Int) (s : State P) :
    getMemory c b (setMemory c a v s) =
      if constrainAddress c.numMemoryAddresses b = constrainAddress c.numMemoryAddresses a
      then constrainMemoryValue c.memoryBitWidth v else getMemory c b s := by
  unfold getMemory setMemory
  exact Memory.read_write _ _ _ _

end Sys2Proof.Machine
end

