-- ==== Sys2Proof/Laws/Registers.lean ====
section
/-! SUPPORT. What the register operations do, said once each. -/

namespace Sys2Proof.Machine

variable {P : Type}

/-- R111: the value a write to a register stores. -/
def storedInRegister (c : Config) (r : Register c) (v : Int) : Nat :=
  if r = c.ip then wrapIP c v else constrainRegisterValue c.registerBitWidth v

theorem setRegister_registers (c : Config) (r : Register c) (v : Int) (s : State P) :
    (setRegister c r v s).registers = s.registers.set r.val (storedInRegister c r v) := rfl

@[simp] theorem setRegister_registers_length (c : Config) (r : Register c) (v : Int) (s : State P) :
    (setRegister c r v s).registers.length = s.registers.length := by
  simp [setRegister_registers]

/-- A register read after a write of one that the state holds. -/
theorem getRegister_setRegister (c : Config) (r : Register c) (v : Int) (s : State P) (q : Register c) (h : r.val < s.registers.length) :
    getRegister c q (setRegister c r v s) = if q = r then storedInRegister c r v else getRegister c q s := by
  unfold getRegister
  rw [setRegister_registers, List.getD_eq_getElem?_getD, List.getD_eq_getElem?_getD, List.getElem?_set]
  by_cases hq : q = r
  · subst hq; simp [h]
  · simp [hq, Fin.val_ne_of_ne (Ne.symm hq)]

/-- Every other register is as before, whatever the state. -/
theorem getRegister_setRegister_ne (c : Config) (r : Register c) (v : Int) (s : State P) (q : Register c) (h : q ≠ r) :
    getRegister c q (setRegister c r v s) = getRegister c q s := by
  unfold getRegister
  rw [setRegister_registers, List.getD_eq_getElem?_getD, List.getD_eq_getElem?_getD, List.getElem?_set]
  simp [Fin.val_ne_of_ne (Ne.symm h)]

theorem storedInRegister_lt (c : Config) (hn : 1 ≤ c.numMemoryAddresses) (r : Register c) (v : Int) :
    storedInRegister c r v < 2 ^ c.registerBitWidth := by
  unfold storedInRegister
  split
  · exact (wrapIP_lt c hn v).2
  · exact constrainRegisterValue_lt _ _

@[simp] theorem fetch_registers_length (c : Config) (s : State P) :
    (fetch c s).registers.length = s.registers.length := by
  simp [fetch]

@[simp] theorem increment_registers_length (c : Config) (s : State P) :
    (increment c s).registers.length = s.registers.length := by
  simp [increment]

/-- R131: what `fetch` does to each register. -/
theorem getRegister_fetch (c : Config) (s : State P) (q : Register c) (h : c.is.val < s.registers.length) :
    getRegister c q (fetch c s) =
      if q = c.is then storedInRegister c c.is (getMemory c (getRegister c c.ip s) s) else getRegister c q s :=
  getRegister_setRegister c c.is _ s q h

/-- R132: what `increment` does to each register. -/
theorem getRegister_increment (c : Config) (s : State P) (q : Register c) (h : c.ip.val < s.registers.length) :
    getRegister c q (increment c s) =
      if q = c.ip then wrapIP c ((getRegister c c.ip s : Int) + (lengthOf c (getRegister c c.is s) : Int))
      else getRegister c q s := by
  unfold increment
  rw [getRegister_setRegister _ _ _ _ _ h]
  simp [storedInRegister]

end Sys2Proof.Machine
end

