-- ==== Sys2Proof/Laws/Invariant.lean ====
section
/-! SUPPORT. What a well-formed configuration gives, that each accessor keeps the invariants, and what the allowed writes of
an effect can do. -/

namespace Sys2Proof.Machine

variable {P : Type}

/-- The parts of a well-formed configuration that proofs use. -/
theorem Config.wellFormed_facts {c : Config} (h : c.wellFormed = true) :
    1 ≤ c.memoryBitWidth ∧ 1 ≤ c.registerBitWidth ∧ 1 ≤ c.numMemoryAddresses ∧ c.registerNames.Nodup
      ∧ c.ip ≠ c.is := by
  simp only [Config.wellFormed, Bool.and_eq_true, decide_eq_true_eq, bne_iff_ne] at h
  obtain ⟨⟨⟨⟨⟨⟨⟨h1, h2⟩, h3⟩, h4⟩, h5⟩, -⟩, -⟩, -⟩ := h
  refine ⟨h1, h2, h3, h4, fun he => h5 ?_⟩
  exact (List.idxOf_inj c.ipMember).mp (Fin.ext_iff.mp he)

/-- The frame of a register write: as many registers, and every other one as before. -/
theorem SameRegistersExcept.setRegister (c : Config) (r : Register c) (v : Int) (s : State P) :
    SameRegistersExcept c [r] s (setRegister c r v s) :=
  ⟨setRegister_registers_length c r v s, fun q hq =>
    getRegister_setRegister_ne c r v s q (List.mem_singleton.not.mp hq)⟩

variable {e : Engine P} {s t : State P}

/-- A write to a register keeps the invariants. -/
theorem Inv.setRegister (hc : e.config.wellFormed = true) (hs : Inv e s) (r : Register e.config) (v : Int) :
    Inv e (setRegister e.config r v s) := by
  obtain ⟨-, -, hn, -, -⟩ := Config.wellFormed_facts hc
  refine ⟨hs.memory, by simpa using hs.registerCount, ?_, ?_, hs.pipelineStep⟩
  · intro x hx
    rw [setRegister_registers] at hx
    rcases List.mem_or_eq_of_mem_set hx with h | h
    · exact hs.registers x h
    · rw [h]; exact storedInRegister_lt _ hn _ _
  · have hl : r.val < s.registers.length := by rw [hs.registerCount]; exact r.isLt
    rw [getRegister_setRegister _ _ _ _ _ hl]
    split
    · rename_i h
      unfold storedInRegister
      rw [if_pos h.symm]
      exact (wrapIP_lt _ hn _).1
    · exact hs.ip

/-- A write to a cell keeps the invariants. -/
theorem Inv.setMemory (hc : e.config.wellFormed = true) (hs : Inv e s) (a v : Int) :
    Inv e (setMemory e.config a v s) := by
  obtain ⟨-, -, hn, -⟩ := Config.wellFormed_facts hc
  exact ⟨Memory.wf_write _ (constrainAddress_lt hn a) (constrainMemoryValue_lt _ v) hs.memory,
    hs.registerCount, hs.registers, hs.ip, hs.pipelineStep⟩

/-- The halt flag is in no invariant. -/
theorem Inv.setHalt (hs : Inv e s) : Inv e (setHalt s) :=
  ⟨hs.memory, hs.registerCount, hs.registers, hs.ip, hs.pipelineStep⟩

/-- R171, R143: neither is what an unresolved opcode does. -/
theorem Inv.unresolvedHalt (c : Config) (hs : Inv e s) : Inv e (unresolvedHalt c s) := by
  unfold Sys2Proof.Machine.unresolvedHalt
  split
  · exact hs.setHalt
  · exact hs

/-- R117: advancing keeps the index legal. -/
theorem Inv.advancePipeline (hs : Inv e s) : Inv e (advancePipeline e.length s) :=
  ⟨hs.memory, hs.registerCount, hs.registers, hs.ip,
    Nat.mod_lt _ (Nat.lt_of_le_of_lt (Nat.zero_le _) hs.pipelineStep)⟩

/-- R119: a peripheral operation writes the peripherals' slots, by `Peripherals.call`, and nothing else. -/
theorem peripheralCall_spec {p op : Nat} {args : List Int} {v : Option Int}
    (h : peripheralCall e p op args s = some (t, v)) :
    ∃ x : P, e.peripherals.call p op args s.periph = some (x, v) ∧ t = { s with periph := x } := by
  obtain ⟨⟨x, w⟩, hx, he⟩ := Option.map_eq_some_iff.mp h
  cases he
  exact ⟨x, hx, rfl⟩

/-- R120, one allowed write: it keeps the invariants, leaves the counters, and clears no halt. -/
theorem AccessorWrite.spec (hc : e.config.wellFormed = true) (w : AccessorWrite e s t) :
    (Inv e s → Inv e t) ∧ t.pipelineStep = s.pipelineStep ∧ t.executionStep = s.executionStep
      ∧ (s.isHalted = true → t.isHalted = true) := by
  cases w with
  | register r v => exact ⟨fun hs => hs.setRegister hc r v, rfl, rfl, id⟩
  | memory a v => exact ⟨fun hs => hs.setMemory hc a v, rfl, rfl, id⟩
  | halt => exact ⟨fun hs => hs.setHalt, rfl, rfl, fun _ => rfl⟩
  | peripheral p op args _ v h =>
    obtain ⟨x, -, rfl⟩ := peripheralCall_spec h
    exact ⟨fun hs => ⟨hs.memory, hs.registerCount, hs.registers, hs.ip, hs.pipelineStep⟩,
      rfl, rfl, id⟩

/-- R120, any number of allowed writes. -/
theorem AccessorWrites.spec (hc : e.config.wellFormed = true) (w : AccessorWrites e s t) :
    (Inv e s → Inv e t) ∧ t.pipelineStep = s.pipelineStep ∧ t.executionStep = s.executionStep
      ∧ (s.isHalted = true → t.isHalted = true) := by
  induction w with
  | refl => exact ⟨id, rfl, rfl, id⟩
  | tail t u _ w ih =>
    obtain ⟨h1, h2, h3, h4⟩ := ih
    obtain ⟨g1, g2, g3, g4⟩ := AccessorWrite.spec hc w
    exact ⟨g1 ∘ h1, g2.trans h2, g3.trans h3, g4 ∘ h4⟩

/-- One write is some writes. -/
theorem AccessorWrites.one (w : AccessorWrite e s t) : AccessorWrites e s t :=
  .tail s t .refl w

end Sys2Proof.Machine
end

