-- ==== Sys2Proof/Laws/Engine.lean ====
section
/-! SUPPORT. What the engine's operations can answer, said once each: lookup, the phases, `step`, many steps. -/

namespace Sys2Proof.Machine

variable {P : Type}

variable {e : Engine P} {s t : State P}

/-- A halted machine does not move. -/
theorem engineStep_halted (h : s.isHalted = true) : engineStep e s = .next s := by
  simp [engineStep, h]

/-- A running machine runs the phase at its index and then advances. -/
theorem engineStep_running {p : Phase P} {u : State P} (h : s.isHalted = false) (hp : e.phases[s.pipelineStep]? = some p)
    (hu : runPhase e p s = .next u) : engineStep e s = .next (advancePipeline e.length u) := by
  simp [engineStep, h, hp, hu]

/-- Everything a step that answers a next state can do (R134). -/
theorem engineStep_cases (h : engineStep e s = .next t) :
    (s.isHalted = true ∧ t = s) ∨
    (s.isHalted = false ∧ ∃ (p : Phase P) (u : State P), e.phases[s.pipelineStep]? = some p ∧ runPhase e p s = .next u
      ∧ t = advancePipeline e.length u) := by
  unfold engineStep at h
  split at h
  · rename_i hh
    cases h
    exact .inl ⟨hh, rfl⟩
  · rename_i hh
    split at h
    · cases h
    · rename_i p hp
      split at h
      · rename_i u hu
        cases h
        exact .inr ⟨by simpa using hh, p, u, hp, hu, rfl⟩
      · cases h
      · cases h

/-- Many steps, one more at the end. -/
theorem engineSteps_succ_last (k : Nat) (s : State P) :
    engineSteps e (k + 1) s = match engineSteps e k s with
      | .next t => engineStep e t
      | .fault r => .fault r
      | .refused r => .refused r := by
  induction k generalizing s with
  | zero =>
    show (match engineStep e s with
      | .next t => engineSteps e 0 t
      | .fault r => .fault r
      | .refused r => .refused r) = engineStep e s
    cases engineStep e s <;> rfl
  | succ k ih =>
    have hl : engineSteps e (k + 1 + 1) s = match engineStep e s with
      | .next t => engineSteps e (k + 1) t
      | .fault r => .fault r
      | .refused r => .refused r := rfl
    have hr : engineSteps e (k + 1) s = match engineStep e s with
      | .next t => engineSteps e k t
      | .fault r => .fault r
      | .refused r => .refused r := rfl
    rw [hl, hr]
    cases engineStep e s with
    | next t => exact ih t
    | fault r => rfl
    | refused r => rfl

/-- The host's run of the machine is the engine's steps at REF8. -/
theorem core_run_eq_engineSteps (k : Nat) (s : State) :
    Host.Core.run Sys2Proof.core k s = engineSteps ref8Engine k s := by
  induction k generalizing s with
  | zero => rfl
  | succ k ih =>
    have hs : Host.Core.step Sys2Proof.core s = engineStep ref8Engine s := rfl
    rw [Host.Core.run.eq_2 Sys2Proof.core s k, hs, engineSteps]
    cases engineStep ref8Engine s with
    | next t => exact ih t
    | fault r => rfl
    | refused r => rfl

/-- The default pipeline, phase by phase. -/
theorem phases_default (h : e.pipeline = none) : e.phases = defaultPipeline := by
  simp [Engine.phases, h]

theorem length_default (h : e.pipeline = none) : e.length = 3 := by
  simp [Engine.length, phases_default h, defaultPipeline]

/-- The first phase of the default pipeline. -/
theorem engineStep_fetch (hd : e.pipeline = none) (hr : s.isHalted = false) (hp : s.pipelineStep = 0) :
    engineStep e s = .next (advancePipeline 3 (fetch e.config s)) := by
  rw [engineStep_running (p := .fetch) hr (by rw [hp, phases_default hd]; rfl) rfl, length_default hd]

/-- The second phase of the default pipeline. -/
theorem engineStep_increment (hd : e.pipeline = none) (hr : s.isHalted = false) (hp : s.pipelineStep = 1) :
    engineStep e s = .next (advancePipeline 3 (increment e.config s)) := by
  rw [engineStep_running (p := .increment) hr (by rw [hp, phases_default hd]; rfl) rfl, length_default hd]

/-- The third phase of the default pipeline, where its effect answers a next state. -/
theorem engineStep_execute {u : State P} (hd : e.pipeline = none) (hr : s.isHalted = false) (hp : s.pipelineStep = 2)
    (hu : execute e s = .next u) : engineStep e s = .next (advancePipeline 3 u) := by
  rw [engineStep_running (p := .execute) hr (by rw [hp, phases_default hd]; rfl) hu, length_default hd]

/-- The lookup of REF8 and its rows. -/
theorem lookup_ref8 (op : Nat) : lookup ref8 op = opcodeRows.lookup op := by
  unfold lookup
  show (match opcodeRows.lookup op with | some h => some h | none => none) = _
  cases opcodeRows.lookup op <;> rfl

/-- The effect of an opcode that REF8's table resolves. -/
theorem effect_ref8Engine {op : Nat} {h : InstructionHeader} (hl : lookup ref8 op = some h) :
    ref8Engine.effect op = ref8Effect ref8 op := by
  rw [lookup_ref8] at hl
  show (match opcodeRows.lookup op with
    | some _ => ref8Effect ref8 op
    | none => fun _ => .refused .noEffect) = ref8Effect ref8 op
  rw [hl]

/-- What a list finds is under one of its keys. -/
theorem mem_keys_of_lookup_isSome {β : Type} (l : List (Nat × β)) (k : Nat) (h : (l.lookup k).isSome) :
    k ∈ l.map Prod.fst := by
  induction l with
  | nil => cases h
  | cons p l ih =>
    rw [List.lookup_cons] at h
    by_cases hk : k = p.1
    · simp [hk]
    · have hb : (k == p.1) = false := by simp [hk]
      rw [hb] at h
      exact List.mem_cons_of_mem _ (ih h)

/-- What a list finds stands in it. -/
theorem mem_of_lookup_eq_some {β : Type} {l : List (Nat × β)} {k : Nat} {b : β} (h : l.lookup k = some b) : (k, b) ∈ l := by
  induction l with
  | nil => cases h
  | cons p l ih =>
    rw [List.lookup_cons] at h
    by_cases hk : k = p.1
    · subst hk
      rw [beq_self_eq_true] at h
      cases h
      exact List.mem_cons_self
    · rw [show (k == p.1) = false by simp [hk]] at h
      exact List.mem_cons_of_mem _ (ih h)

/-- R65: everything `lookup` can return, with the effect that goes with it. -/
theorem lookup_cases (e : Engine P) {op : Nat} {h : InstructionHeader} (hl : lookup e.config op = some h) :
    ((op, h) ∈ e.config.instructionTable ∧ e.effect op = e.tableEffect op)
      ∨ (∃ f : Nat → Option InstructionHeader, e.config.undocumentedOpcodeResolver = some f ∧ f op = some h
          ∧ e.effect op = e.resolverEffect op) := by
  cases ht : e.config.instructionTable.lookup op with
  | some h' =>
    simp only [lookup, ht, Option.some.injEq] at hl
    subst hl
    exact .inl ⟨mem_of_lookup_eq_some ht, by simp only [Engine.effect, ht]⟩
  | none =>
    cases hf : e.config.undocumentedOpcodeResolver with
    | none => simp [lookup, ht, hf] at hl
    | some f =>
      simp only [lookup, ht, hf] at hl
      exact .inr ⟨f, rfl, hl, by simp only [Engine.effect, ht]⟩

/-- R13: every Instruction that `lookup` can return has a length of at least 1. -/
theorem Engine.WellFormed.length_of_lookup {e : Engine P} (hw : e.WellFormed) {op : Nat} {h : InstructionHeader}
    (hl : lookup e.config op = some h) : 1 ≤ h.ipIncrement := by
  rcases lookup_cases e hl with ⟨hm, -⟩ | ⟨f, hf, hh, -⟩
  · have hc := hw.config
    simp only [Config.wellFormed, Bool.and_eq_true, List.all_eq_true, decide_eq_true_eq] at hc
    exact hc.1.2 _ hm
  · exact hw.resolver f op h hf hh

/-- R13, R120: the effect that `execute` runs answers a next state by allowed writes. -/
theorem Engine.WellFormed.effect_next {e : Engine P} {s : State P} {h : InstructionHeader} (hw : e.WellFormed)
    (hi : Inv e s) (hl : lookup e.config (getRegister e.config e.config.is s) = some h) :
    ∃ t : State P, e.effect (getRegister e.config e.config.is s) s = .next t ∧ AccessorWrites e s t := by
  have hc : ExecuteContract e (e.effect (getRegister e.config e.config.is s)) := by
    rcases lookup_cases e hl with ⟨hm, he⟩ | ⟨f, hf, hh, he⟩
    · rw [he]; exact hw.tableEffects _ h hm
    · rw [he]; exact hw.resolverEffects f _ h hf hh
  rcases hc s hi with ht | ⟨hn, -⟩
  · exact ht
  · rw [hl] at hn; cases hn

/-- The eleven opcodes of REF8. -/
theorem opcodeRows_lookup_isSome (op : Nat) (h : (opcodeRows.lookup op).isSome) :
    op = 0 ∨ op = 1 ∨ op = 17 ∨ op = 18 ∨ op = 19 ∨ op = 20 ∨ op = 21 ∨ op = 22 ∨ op = 23 ∨ op = 33 ∨ op = 34 := by
  simpa [opcodeRows] using mem_keys_of_lookup_isSome _ _ h

end Sys2Proof.Machine
end

