-- ==== Sys2Proof/Laws/Operands.lean ====
section
/-! SUPPORT. What the shared operations that may answer nothing can answer, said once each: the operand reads, the host's
transactions, the assembler's resolution. -/

namespace Sys2Proof.Machine

variable {P : Type}

/-- R114: everything `getArgument` can answer. -/
theorem getArgument_spec {c : Config} {n : Int} {s : State P} {v : Nat} (h : getArgument c n s = some v) :
    ∃ i : InstructionHeader, lookup c (getRegister c c.is s) = some i
      ∧ v = getMemory c ((getRegister c c.ip s : Int) - ((i.ipIncrement : Int) - n)) s := by
  unfold getArgument at h
  split at h
  · rename_i i hi
    cases h
    exact ⟨i, hi, rfl⟩
  · cases h

/-- Everything `executingOperand` can answer. -/
theorem executingOperand_spec {c : Config} {s : State P} {v : Nat} (h : executingOperand c s = some v) :
    ∃ i : InstructionHeader, lookup c (getRegister c c.is s) = some i
      ∧ (i.ipIncrement = 1 ∧ v = 0
        ∨ i.ipIncrement ≠ 1 ∧ v = getMemory c ((getRegister c c.ip s : Int) - ((i.ipIncrement : Int) - 1)) s) := by
  unfold executingOperand at h
  split at h
  · rename_i i hi
    split at h
    · rename_i hk
      cases h
      exact ⟨i, hi, .inl ⟨hk, rfl⟩⟩
    · rename_i hk
      obtain ⟨j, hj, hv⟩ := getArgument_spec h
      rw [hi] at hj
      cases hj
      exact ⟨i, hi, .inr ⟨hk, hv⟩⟩
  · cases h

/-- The state of a reply that hands nothing back. -/
theorem replyDone_next {R : Result P} {t : State P} {r : Reply P} (h : replyDone R = .next (t, r)) : R = .next t ∧ r = .done := by
  cases R with
  | next u => cases h; exact ⟨rfl, rfl⟩
  | fault f => cases h
  | refused f => cases h

/-- R190, R13: everything `newState` can answer. -/
theorem newState_next {e : Engine P} [Decidable e.WellFormed] {t : State P} (h : newState e = .next t) :
    e.WellFormed ∧ t = freshState e := by
  unfold newState at h
  split at h
  · rename_i hw
    cases h
    exact ⟨hw, rfl⟩
  · cases h

/-- On a well-formed engine `newState` answers. -/
theorem newState_of_wellFormed {e : Engine P} [Decidable e.WellFormed] (hw : e.WellFormed) :
    newState e = .next (freshState e) :=
  if_pos hw

/-- On a well-formed engine `run` hands the host what it pulls. -/
theorem run_of_wellFormed {e : Engine P} [Decidable e.WellFormed] (hw : e.WellFormed) (k : Nat) (s : State P) :
    run e k s = pulled e k s :=
  if_pos hw

/-- On a well-formed engine `assembleFor` is `assemble` with the table's mnemonics. -/
theorem assembleFor_of_wellFormed {e : Engine P} [Decidable e.WellFormed] (hw : e.WellFormed) (b : Bases) (source : Text) :
    assembleFor e b source = .ok (assemble b e.config.mnemonics source) :=
  if_pos hw

/-- R13: a transaction that is not refused outright is answered on a well-formed engine. -/
theorem transact_next {e : Engine P} [Decidable e.WellFormed] {tr : Transaction} {s : State P} {x : State P × Reply P}
    (h : transact e tr s = .next x) : e.WellFormed ∧ answer e tr s = .next x := by
  unfold transact at h
  split at h
  · rename_i hw
    exact ⟨hw, h⟩
  · cases h

/-- R22: the register of a name is where the name stands. -/
theorem registerNamed_spec {c : Config} {name : String} {r : Register c} (h : registerNamed c name = some r) :
    c.registerNames[r.val] = name := by
  unfold registerNamed at h
  split at h
  · cases h
    exact List.getElem_idxOf _
  · cases h

/-- R200: the state a transaction leaves is the state before, or what its operation makes of it. -/
theorem transact_state {e : Engine P} [Decidable e.WellFormed] {tr : Transaction} {s t : State P} {r : Reply P}
    (h : transact e tr s = .next (t, r)) :
    t = s ∨ (tr = .reset ∧ resetState e s = .next t) ∨ (tr = .step ∧ engineStep e s = .next t)
      ∨ (∃ vs, tr = .bulkLoadMemory vs ∧ bulkLoadMemory e.config vs s = .next t)
      ∨ (∃ vs, tr = .bulkLoadRegisters vs ∧ bulkLoadRegisters e.config vs s = .next t)
      ∨ (∃ name q v, tr = .setRegister name v ∧ registerNamed e.config name = some q ∧ t = setRegister e.config q v s)
      ∨ (∃ a v, tr = .setMemory a v ∧ t = setMemory e.config a v s) := by
  have h := (transact_next h).2
  cases tr with
  | reset => exact .inr (.inl ⟨rfl, (replyDone_next h).1⟩)
  | step => exact .inr (.inr (.inl ⟨rfl, (replyDone_next h).1⟩))
  | bulkLoadMemory vs => exact .inr (.inr (.inr (.inl ⟨vs, rfl, (replyDone_next h).1⟩)))
  | bulkLoadRegisters vs => exact .inr (.inr (.inr (.inr (.inl ⟨vs, rfl, (replyDone_next h).1⟩))))
  | getRegister name =>
    unfold answer at h
    simp only at h
    split at h
    · cases h; exact .inl rfl
    · cases h
  | setRegister name v =>
    unfold answer at h
    simp only at h
    split at h
    · rename_i q hq
      cases h
      exact .inr (.inr (.inr (.inr (.inr (.inl ⟨name, q, v, rfl, hq, rfl⟩)))))
    · cases h
  | getMemory a => cases h; exact .inl rfl
  | setMemory a v => cases h; exact .inr (.inr (.inr (.inr (.inr (.inr ⟨a, v, rfl, rfl⟩)))))
  | getArgument n =>
    unfold answer at h
    simp only at h
    split at h
    · cases h; exact .inl rfl
    · cases h
  | readIsHalted => cases h; exact .inl rfl
  | readPipelineStep => cases h; exact .inl rfl
  | readExecutionStep => cases h; exact .inl rfl
  | readPeriph => cases h; exact .inl rfl

/-- R78 to R81: everything a token can resolve to, in the order of precedence. -/
theorem resolveToken_cases {labelMap mnemonics : List (Text × Nat)} {t : Text} {v : Nat}
    (h : resolveToken labelMap mnemonics t = some v) :
    labelMap.lookup t = some v
      ∨ (labelMap.lookup t = none ∧ mnemonics.lookup t = some v)
      ∨ (labelMap.lookup t = none ∧ mnemonics.lookup t = none ∧ quotedChar t = some v)
      ∨ (labelMap.lookup t = none ∧ mnemonics.lookup t = none ∧ quotedChar t = none ∧ decimal t = some v) := by
  unfold resolveToken at h
  split at h
  · rename_i a ha
    cases h
    exact .inl ha
  · rename_i ha
    split at h
    · rename_i op hop
      cases h
      exact .inr (.inl ⟨ha, hop⟩)
    · rename_i hop
      split at h
      · rename_i code hc
        cases h
        exact .inr (.inr (.inl ⟨ha, hop, hc⟩))
      · rename_i hc
        exact .inr (.inr (.inr ⟨ha, hop, hc, h⟩))

end Sys2Proof.Machine
end

