-- ==== Sys2Proof/Laws/PerInstr.lean ====
section
/-! SUPPORT. The statement made of each instruction as syntax, one lemma per constructor: its cells agree with its row of the
opcode table (spec/43_reference_table.md R150 to R161). -/

namespace Sys2Proof.Laws

/-- R60, R63: an instruction is encoded in the opcode cell of its row and as many cells as that row's `ipIncrement`, each a cell
of 8 bits when the instruction is well formed, and its opcode and operand make it again. -/
def EncodedCells.Statement (i : Instr) : Prop :=
  (∃ h : InstructionHeader, opcodeRows.lookup (opcodeOf i) = some h ∧ (encode i).length = h.ipIncrement)
  ∧ (encode i).head? = some (opcodeOf i)
  ∧ (i.wellFormed = true → ∀ v ∈ encode i, v < 256)
  ∧ instrOf (opcodeOf i) (i.operand?.getD 0) = some i

theorem EncodedCells.halt : EncodedCells.Statement .halt :=
  ⟨⟨_, rfl, rfl⟩, rfl, fun _ => by decide, rfl⟩

theorem EncodedCells.nop : EncodedCells.Statement .nop :=
  ⟨⟨_, rfl, rfl⟩, rfl, fun _ => by decide, rfl⟩

theorem EncodedCells.ldr0 (imm : Nat) : EncodedCells.Statement (.ldr0 imm) :=
  ⟨⟨_, rfl, rfl⟩, rfl, by simp [Instr.wellFormed, Instr.operand?, encode, opcodeOf], rfl⟩

theorem EncodedCells.ldr1 (imm : Nat) : EncodedCells.Statement (.ldr1 imm) :=
  ⟨⟨_, rfl, rfl⟩, rfl, by simp [Instr.wellFormed, Instr.operand?, encode, opcodeOf], rfl⟩

theorem EncodedCells.load (addr : Nat) : EncodedCells.Statement (.load addr) :=
  ⟨⟨_, rfl, rfl⟩, rfl, by simp [Instr.wellFormed, Instr.operand?, encode, opcodeOf], rfl⟩

theorem EncodedCells.store (addr : Nat) : EncodedCells.Statement (.store addr) :=
  ⟨⟨_, rfl, rfl⟩, rfl, by simp [Instr.wellFormed, Instr.operand?, encode, opcodeOf], rfl⟩

theorem EncodedCells.add : EncodedCells.Statement .add :=
  ⟨⟨_, rfl, rfl⟩, rfl, fun _ => by decide, rfl⟩

theorem EncodedCells.sub : EncodedCells.Statement .sub :=
  ⟨⟨_, rfl, rfl⟩, rfl, fun _ => by decide, rfl⟩

theorem EncodedCells.swap : EncodedCells.Statement .swap :=
  ⟨⟨_, rfl, rfl⟩, rfl, fun _ => by decide, rfl⟩

theorem EncodedCells.jmp (target : Nat) : EncodedCells.Statement (.jmp target) :=
  ⟨⟨_, rfl, rfl⟩, rfl, by simp [Instr.wellFormed, Instr.operand?, encode, opcodeOf], rfl⟩

theorem EncodedCells.jz (target : Nat) : EncodedCells.Statement (.jz target) :=
  ⟨⟨_, rfl, rfl⟩, rfl, by simp [Instr.wellFormed, Instr.operand?, encode, opcodeOf], rfl⟩

end Sys2Proof.Laws
end

