-- ==== Sys2Proof/Laws/Peripherals.lean ====
section
/-! SUPPORT. What a peripheral operation and the reset of the peripherals do to the slots, said once each. -/

namespace Sys2Proof.Machine

variable {P : Type}

/-- R181: everything an operation that gives a result can do: it is the addressed peripheral's own, on that peripheral's slot. -/
theorem Peripherals.call_spec (ps : Peripherals P) {p op : Nat} {args : List Int} {x y : P} {v : Option Int}
    (h : ps.call p op args x = some (y, v)) :
    (∀ q : Nat, q ≠ p → ps.slot? q y = ps.slot? q x)
    ∧ ∃ (σ : Type) (dev : Peripheral σ) (f : List Int → σ → σ × Option Int) (a : σ),
        ps.device? p = some ⟨σ, dev⟩ ∧ dev.operations[op]? = some f
        ∧ ps.slot? p x = some ⟨σ, a⟩ ∧ ps.slot? p y = some ⟨σ, (f args a).1⟩ ∧ v = (f args a).2 := by
  induction ps generalizing p with
  | nil => cases h
  | cons dev rest ih =>
    obtain ⟨a, xs⟩ := x
    cases p with
    | zero =>
      obtain ⟨f, hf, he⟩ := Option.map_eq_some_iff.mp h
      cases he
      refine ⟨?_, _, dev, f, a, rfl, hf, rfl, rfl, rfl⟩
      intro q hq
      cases q with
      | zero => exact absurd rfl hq
      | succ q => rfl
    | succ p =>
      obtain ⟨⟨ys, w⟩, hc, he⟩ := Option.map_eq_some_iff.mp h
      cases he
      obtain ⟨hne, hp⟩ := ih hc
      refine ⟨?_, hp⟩
      intro q hq
      cases q with
      | zero => rfl
      | succ q => exact hne q (fun hqp => hq (congrArg Nat.succ hqp))

/-- R190: each slot of a new state is what its own peripheral's `reset` makes of what the configuration says it held. -/
theorem Peripherals.slot?_fresh (ps : Peripherals P) (p : Nat) :
    ps.slot? p ps.fresh = (ps.device? p).map fun d => ⟨d.1, d.2.reset d.2.beforeReset⟩ := by
  induction ps generalizing p with
  | nil => rfl
  | cons dev rest ih =>
    cases p with
    | zero => rfl
    | succ p => exact ih p

end Sys2Proof.Machine
end

