-- ==== Sys2Proof/Tests/Slice0.lean ====
section
/-! SUPPORT. Tests and witnesses. The expected values of the tests are the vectors of spec/95_test_vectors.md, named by their
number, or the encodings of spec/43_reference_table.md, written out. A witness shows a concrete state and operands that meet
all hypotheses of a statement together, at a boundary of each of its clauses. -/

namespace Sys2Proof.Tests

open Sys2Proof.Machine

/-- A fresh state with cells from address 0 on and with given registers. -/
def st (cells : List Int) (registers : List Nat) : State :=
  { State.reset with memory := Memory.ofValues 8 0 cells, registers := registers }

/-- IP, IS, R0, R1 (or the registers of another configuration), the flag and the two counters after a result. -/
def view {P : Type} (r : Result P) : Option (List Nat × Bool × Nat × Nat) :=
  (nextState? r).map fun t => (t.registers, t.isHalted, t.pipelineStep, t.executionStep)

/-- One instruction of REF8, three steps, from a fresh state with these cells and registers. -/
def one (cells : List Int) (registers : List Nat) : Option (List Nat × Bool × Nat × Nat) :=
  view (engineSteps ref8Engine 3 (st cells registers))

/-! ### Well-formedness refuses what each check is for -/

theorem test_operand_too_large : (Instr.ldr0 256).wellFormed = false := by decide
theorem test_operand_largest : (Instr.jz 255).wellFormed = true := by decide
theorem test_ref8_well_formed : ref8.wellFormed = true := by decide
theorem test_memw_zero : { ref8 with memoryBitWidth := 0 }.wellFormed = false := by decide
theorem test_regw_zero : { ref8 with registerBitWidth := 0 }.wellFormed = false := by decide
theorem test_no_cells : { ref8 with numMemoryAddresses := 0 }.wellFormed = false := by decide
theorem test_register_twice : { ref8 with registerNames := ["IP", "IS", "A", "A"], ipMember := by decide, isMember := by decide }.wellFormed = false := by decide
theorem test_ip_equals_is :
    { ref8 with instructionRegister := some "IP", isMember := by decide }.wellFormed = false := by decide
theorem test_key_twice :
    { ref8 with instructionTable := [(0, ⟨"a", 1, none⟩), (0, ⟨"b", 1, none⟩)] }.wellFormed = false := by decide
theorem test_length_zero :
    { ref8 with instructionTable := [(0, ⟨"a", 0, none⟩)] }.wellFormed = false := by decide
theorem test_mnemonic_twice :
    { ref8 with instructionTable := [(0, ⟨"a", 1, some "X"⟩), (1, ⟨"b", 1, some "X"⟩)] }.wellFormed = false := by decide

/-- R9: the default names, and names given. -/
theorem test_default_names : (ref8.ipName, ref8.isName, ref8.ip, ref8.is) = ("IP", "IS", regIP, regIS) := by decide
theorem test_given_names :
    let c : Config := { ref8 with
      registerNames := ["A", "PC", "IR"], instructionPointerRegister := some "PC", instructionRegister := some "IR"
      ipMember := by decide, isMember := by decide }
    (c.wellFormed, c.ip.val, c.is.val) = (true, 1, 2) := by decide
/-- U3: a name that is no register's stands for none. -/
theorem test_unknown_name : registerNamed ref8 "R2" = none ∧ registerNamed ref8 "R1" = some regR1 := by decide

/-- R11: a resolver that answers an instruction of no cells. -/
def badResolverEngine : Engine Unit :=
  { ref8Engine with config := { ref8 with undocumentedOpcodeResolver := some fun _ => some ⟨"no cells", 0, none⟩ } }

theorem badResolverEngine_illFormed : ¬ badResolverEngine.WellFormed := by
  intro h
  have h0 : 1 ≤ 0 := h.resolver _ 99 ⟨"no cells", 0, none⟩ rfl rfl
  exact absurd h0 (by decide)

/-- R120: an effect that writes `pipelineStep`. -/
def badEffectEngine : Engine Unit :=
  { ref8Engine with tableEffect := fun _ s => .next { s with pipelineStep := s.pipelineStep + 1 } }

theorem badEffectEngine_illFormed : ¬ badEffectEngine.WellFormed := by
  intro h
  rcases h.tableEffects 0 _ (List.mem_cons_self) State.reset ⟨rfl, rfl, by decide, by decide, by decide⟩ with ⟨t, ht, hw⟩ | ⟨hn, -⟩
  · cases ht
    exact absurd (AccessorWrites.spec h.config hw).2.1 (by decide)
  · exact absurd hn (by decide)

/-- R13: the same at a key that IS cannot hold, 256, beside the rows of REF8. -/
def unreachableKeyEngine : Engine Unit :=
  { ref8Engine with
    config := { ref8 with instructionTable := (256, ⟨"out of reach", 1, none⟩) :: opcodeRows }
    tableEffect := fun op s => if op = 256 then .next { s with pipelineStep := s.pipelineStep + 1 } else ref8Effect ref8 op s }

theorem unreachableKeyEngine_illFormed : ¬ unreachableKeyEngine.WellFormed := by
  intro h
  rcases h.tableEffects 256 _ (List.mem_cons_self) State.reset ⟨rfl, rfl, by decide, by decide, by decide⟩ with ⟨t, ht, hw⟩ | ⟨hn, -⟩
  · cases ht
    exact absurd (AccessorWrites.spec h.config hw).2.1 (by decide)
  · exact absurd hn (by decide)

/-- R13: a resolver that answers an instruction of no cells for HALT's opcode alone, which is a key of the table. -/
def shadowedAnswerEngine : Engine Unit :=
  { ref8Engine with config := { ref8 with
      undocumentedOpcodeResolver := some fun op => if op = 0 then some ⟨"no cells", 0, none⟩ else none } }

theorem shadowedAnswerEngine_illFormed : ¬ shadowedAnswerEngine.WellFormed := by
  intro h
  have h0 : 1 ≤ 0 := h.resolver _ 0 ⟨"no cells", 0, none⟩ rfl rfl
  exact absurd h0 (by decide)

/-- D17: no phase at all. -/
theorem emptyPipeline_illFormed : ¬ { ref8Engine with pipeline := some [] }.WellFormed :=
  fun h => absurd h.pipeline (by decide)

theorem test_bad_resolver_refused :
    @newState Unit badResolverEngine (isFalse badResolverEngine_illFormed) = .refused .illFormedConfiguration := rfl
theorem test_bad_effect_refused :
    @transact Unit badEffectEngine (isFalse badEffectEngine_illFormed) .step State.reset = .refused .illFormedConfiguration := rfl
theorem test_unreachable_key_refused :
    @newState Unit unreachableKeyEngine (isFalse unreachableKeyEngine_illFormed) = .refused .illFormedConfiguration := rfl
theorem test_shadowed_answer_refused :
    @newState Unit shadowedAnswerEngine (isFalse shadowedAnswerEngine_illFormed) = .refused .illFormedConfiguration := rfl
theorem test_bad_resolver_run_refused :
    @run Unit badResolverEngine (isFalse badResolverEngine_illFormed) 3 State.reset = [.refused .illFormedConfiguration] := rfl
/-- U8: a table with one mnemonic twice. -/
theorem test_mnemonic_twice_not_assembled :
    let e : Engine Unit := { ref8Engine with config := { ref8 with
      instructionTable := [(0, ⟨"a", 1, some "X"⟩), (1, ⟨"b", 1, some "X"⟩)] } }
    @assembleFor Unit e (isFalse fun h => absurd h.config (by decide)) ⟨0, 0⟩ "X".toList
      = .error .illFormedConfiguration := rfl
theorem test_empty_pipeline_refused :
    @newState Unit { ref8Engine with pipeline := some [] } (isFalse emptyPipeline_illFormed) = .refused .illFormedConfiguration := rfl

/-! ### Decoding: every constructor's word written out from the spec's encoding, the first cell the low byte -/

theorem test_decode_halt : decodeTableWord 8 0b00000000 = some .halt := by decide
theorem test_decode_nop : decodeTableWord 8 0b00000001 = some .nop := by decide
theorem test_decode_ldr0 : decodeTableWord 16 0b0000010100010001 = some (.ldr0 5) := by decide
theorem test_decode_ldr1 : decodeTableWord 16 0b1100100000010010 = some (.ldr1 200) := by decide
theorem test_decode_load : decodeTableWord 16 0b0000001100010011 = some (.load 3) := by decide
theorem test_decode_store : decodeTableWord 16 0b1111111100010100 = some (.store 255) := by decide
theorem test_decode_add : decodeTableWord 8 0b00010101 = some .add := by decide
theorem test_decode_sub : decodeTableWord 8 0b00010110 = some .sub := by decide
theorem test_decode_swap : decodeTableWord 8 0b00010111 = some .swap := by decide
theorem test_decode_jmp : decodeTableWord 16 0b0000001000100001 = some (.jmp 2) := by decide
theorem test_decode_jz : decodeTableWord 16 0b0000100100100010 = some (.jz 9) := by decide
theorem test_decode_unresolved : decodeTableWord 8 99 = none := by decide
theorem test_decode_shorter_than_the_instruction : decodeTableWord 8 17 = some (.ldr0 0) := by decide

/-! ### One instruction, the vectors V40a to V40q -/

theorem test_V40a_halt : one [0] [0, 0, 0, 0] = some ([1, 0, 0, 0], true, 0, 1) := by decide
theorem test_V40b_nop : one [1, 0] [0, 0, 0, 0] = some ([1, 1, 0, 0], false, 0, 1) := by decide
theorem test_V40d_ldr0_at_255 :
    view (engineSteps ref8Engine 3 (setMemory ref8 255 17 (st [9] [255, 0, 0, 0]))) = some ([1, 17, 9, 0], false, 0, 1) := by
  decide
theorem test_V40e_ldr1 : one [18, 200, 0] [0, 0, 0, 0] = some ([2, 18, 0, 200], false, 0, 1) := by decide
theorem test_V40f_load : one [19, 3, 0, 77] [0, 0, 0, 0] = some ([2, 19, 77, 0], false, 0, 1) := by decide
theorem test_V40g_load_of_its_own_operand : one [0, 0, 0, 0, 19, 5] [4, 0, 0, 0] = some ([6, 19, 5, 0], false, 0, 1) := by decide
theorem test_V40h_store : one [20, 255, 0] [0, 0, 44, 0] = some ([2, 20, 44, 0], false, 0, 1) := by decide
theorem test_V40h_store_memory :
    (nextState? (engineSteps ref8Engine 3 (st [20, 255, 0] [0, 0, 44, 0]))).map State.memory
      = some [(0, 20), (1, 255), (255, 44)] := by decide
theorem test_V40i_add : one [21] [0, 0, 200, 100] = some ([1, 21, 44, 100], false, 0, 1) := by decide
theorem test_V40j_add_carry_lost : one [21] [0, 0, 255, 1] = some ([1, 21, 0, 1], false, 0, 1) := by decide
theorem test_V40k_sub_borrow : one [22] [0, 0, 0, 1] = some ([1, 22, 255, 1], false, 0, 1) := by decide
theorem test_V40l_sub : one [22] [0, 0, 0, 255] = some ([1, 22, 1, 255], false, 0, 1) := by decide
theorem test_V40m_swap : one [23] [0, 0, 3, 9] = some ([1, 23, 9, 3], false, 0, 1) := by decide
theorem test_V40n_jmp : one [33, 2, 0] [0, 0, 0, 0] = some ([2, 33, 0, 0], false, 0, 1) := by decide
theorem test_V40p_jz_taken : one [34, 9] [0, 0, 0, 0] = some ([9, 34, 0, 0], false, 0, 1) := by decide
theorem test_V40q_jz_not_taken : one [34, 9] [0, 0, 1, 0] = some ([2, 34, 1, 0], false, 0, 1) := by decide

/-! ### The engine at other configurations -/

/-- V33, rows 1 to 3 and 4 to 6. -/
theorem test_V33_undocumented :
    view (engineSteps ref8UEngine 3 (st [200, 7, 99, 0] [0, 0, 0, 0])) = some ([2, 200, 0, 0], false, 0, 1) := by decide
theorem test_V33_resolver_declines :
    view (engineSteps ref8UEngine 3 (st [200, 7, 99, 0] [2, 200, 0, 0])) = some ([3, 99, 0, 0], true, 0, 1) := by decide
theorem test_V34_nop_variant :
    view (engineSteps ref8NEngine 3 (st [99, 0] [0, 0, 0, 0])) = some ([1, 99, 0, 0], false, 0, 1) := by decide
theorem test_V37_unresolved_at_the_last_address :
    view (engineSteps (bareEngine odd10) 3 (setMemory odd10 9 7 (st [] [9, 0, 0]))) = some ([0, 7, 0], true, 0, 1) := by decide

/-- V29's configuration: one instruction of three cells. -/
def triConfig : Config :=
  { bareConfig 8 8 256 with instructionTable := [(40, ⟨"three cells", 3, none⟩)] }

theorem test_V29_operands_across_the_top :
    let s := setMemory triConfig 255 40 (st [21, 22, 23] [2, 40, 0])
    [getArgument triConfig 1 s, getArgument triConfig 2 s, getArgument triConfig 0 s] = [some 21, some 22, some 40] := by decide

/-- V36's configuration: one instruction longer than the memory. -/
def bigConfig : Config :=
  { bareConfig 4 4 4 with instructionTable := [(2, ⟨"eleven cells", 11, none⟩)] }

theorem test_V36_longer_than_memory : getRegister bigConfig bigConfig.ip (increment bigConfig (st [] [0, 2, 0])) = 3 := by decide

theorem test_R26_narrow_ip : wrapIP odd10 16 = 0 ∧ wrapIP odd10 (-1) = 5 := by decide

/-! ### The host -/

theorem test_V71_bulk_load :
    (nextState? (bulkLoadMemory ref8 [17, 300, -1] (st [1, 2, 3, 4] [0, 0, 0, 0]))).map State.memory
      = some [(0, 17), (1, 44), (2, 255)] := by decide
theorem test_V72_bulk_load_registers :
    view (bulkLoadRegisters ref8 [254] (st [] [1, 2, 3, 4])) = some ([254, 0, 0, 0], false, 0, 0) := by decide
theorem test_V72_bulk_load_registers_refused :
    bulkLoadRegisters ref8 [0, 0, 300] State.reset = .refused .registerValuesOutOfDuty := rfl
theorem test_V38_operand_patched_between_phases :
    (nextState? (engineStep ref8Engine (st [17, 5, 0] [0, 0, 0, 0]))).map
        (fun t => view (engineSteps ref8Engine 2 (setMemory ref8 1 9 t)))
      = some (some ([2, 17, 9, 0], false, 0, 1)) := by decide
/-- The host's placing of a word: the very next step runs it. -/
theorem test_withFetchWord_runs_ldr0 :
    view (step (State.reset.withFetchWord 16 0b0000010100010001)) = some ([2, 17, 5, 0], false, 0, 1) := by decide
theorem test_withFetchWord_runs_halt :
    view (step (State.reset.withFetchWord 8 0b00000000)) = some ([1, 0, 0, 0], true, 0, 1) := by decide

/-! ### The assembler, the mnemonics of REF8 -/

/-- The values of a source that assembles. -/
def cellsOf (source : String) : Option (List Nat) :=
  match assemble ⟨0, 0⟩ ref8.mnemonics source.toList with
  | .ok values _ => some values
  | .error _ _ => none
  | .refusedDuplicateLabel => none

/-- The error of a source that does not assemble. -/
def errorOf (source : String) : Option (Text × Nat) :=
  match assemble ⟨0, 0⟩ ref8.mnemonics source.toList with
  | .ok _ _ => none
  | .error token position => some (token, position)
  | .refusedDuplicateLabel => none

theorem test_V44_adjacent_labels : cellsOf "A: B: HALT JMP A JMP B" = some [0, 33, 0, 33, 0] := rfl
theorem test_V45_label_hides_mnemonic : cellsOf "HALT: JMP HALT" = some [33, 0] := rfl
theorem test_V46_values : cellsOf "  LDR0 'A' // c\n\tLDR0 300" = some [17, 65, 17, 300] := rfl
theorem test_V46_map :
    sourceMap ⟨0, 0⟩ "  LDR0 'A' // c\n\tLDR0 300".toList = [(0, 0, 2), (1, 0, 7), (2, 1, 1), (3, 1, 6)] := rfl
theorem test_V49_no_sign : errorOf "LDR0 -1" = some ("-1".toList, 1) := rfl
theorem test_V52_case : errorOf "jmp 3" = some ("jmp".toList, 0) := rfl
theorem test_V53_lower_case_label : errorOf "Loop: HALT" = some ("Loop:".toList, 0) := rfl
theorem test_V55_quoted_space : errorOf "LDR0 ' '" = some ("'".toList, 1) := rfl
theorem test_V56_apostrophe : cellsOf "''' 007" = some [39, 7] := rfl
theorem test_V57_one_slash : cellsOf "LDR0 '/'//x" = some [17, 47] := rfl
theorem test_V62_label_at_the_end : cellsOf "JMP A\nA:" = some [33, 2] := rfl
theorem test_V64_carriage_return : cellsOf "LDR0 5\r\nHALT\r\n" = some [17, 5, 0] := rfl
theorem test_V68_duplicate_label : assemble ⟨0, 0⟩ ref8.mnemonics "A: HALT\nA: NOP".toList = .refusedDuplicateLabel := rfl

/-! ### Witnesses: arithmetic, accessors, decoding -/

theorem witness_register_mask : (1 : Nat) ≤ 1 ∧ constrainRegisterValue 1 (-1) = 1 ∧ constrainRegisterValue 1 2 = 0 := by decide
theorem witness_address_wrap : (1 : Nat) ≤ 10 ∧ constrainAddress 10 (-1) = 9 ∧ constrainAddress 10 10 = 0 := by decide
theorem witness_constraint_laws :
    (1 ≤ (4 : Nat) ∧ (0 : Int) ≤ 15 ∧ (15 : Int) < 2 ^ 4 ∧ constrainRegisterValue 4 15 = 15)
    ∧ (1 ≤ (10 : Nat) ∧ (0 : Int) ≤ 9 ∧ (9 : Int) < 10 ∧ constrainAddress 10 9 = 9) := by decide
/-- Both sides of the equivalence: N divides `2^REGW`, and it does not. -/
theorem witness_ip_wrap :
    (ref8.wellFormed = true ∧ ref8.numMemoryAddresses ∣ 2 ^ ref8.registerBitWidth)
    ∧ (odd10.wellFormed = true ∧ ¬ odd10.numMemoryAddresses ∣ 2 ^ odd10.registerBitWidth) := by decide
/-- The register is IP, and it is not. -/
theorem witness_set_register :
    (odd10.wellFormed = true ∧ (st [] [9, 0, 0]).registers.length = odd10.registerNames.length
      ∧ getRegister odd10 odd10.ip (setRegister odd10 odd10.ip (-1) (st [] [9, 0, 0])) = 5)
    ∧ (odd10.is ≠ odd10.ip ∧ getRegister odd10 odd10.is (setRegister odd10 odd10.is (-1) (st [] [9, 0, 0])) = 15) := by decide
/-- The two addresses wrap to one cell, and they do not. -/
theorem witness_read_after_write :
    odd10.wellFormed = true
    ∧ getMemory odd10 9 (setMemory odd10 (-1) 300 State.reset) = 12
    ∧ getMemory odd10 8 (setMemory odd10 (-1) 300 State.reset) = 0 := by decide
theorem witness_periodic :
    odd10.wellFormed = true ∧ setMemory odd10 (-1 + 2 * 10) (5 + 3 * 16) State.reset = setMemory odd10 (-1) 5 State.reset := by
  decide
/-- The instruction at the last address; N divides `2^REGW`, and (of ODD10 with one entry) it does not. -/
theorem witness_operand_cells :
    (triConfig.wellFormed = true ∧ (st [21, 22] [255, 40, 0]).registers.length = triConfig.registerNames.length
      ∧ lookup triConfig (getRegister triConfig triConfig.is (st [21, 22] [255, 40, 0])) = some ⟨"three cells", 3, none⟩
      ∧ triConfig.numMemoryAddresses ∣ 2 ^ triConfig.registerBitWidth)
    ∧ ({ odd10 with instructionTable := [(2, ⟨"two cells", 2, none⟩)] }.wellFormed = true
      ∧ lookup { odd10 with instructionTable := [(2, ⟨"two cells", 2, none⟩)] } 2 = some ⟨"two cells", 2, none⟩
      ∧ ¬ odd10.numMemoryAddresses ∣ 2 ^ odd10.registerBitWidth) := by decide
theorem witness_dense_table :
    odd10.undocumentedOpcodeResolver.isNone = true
    ∧ lookup { odd10 with instructionTable := denseTable [⟨"a", 1, none⟩, ⟨"b", 3, none⟩] } 1 = some ⟨"b", 3, none⟩
    ∧ lookup { odd10 with instructionTable := denseTable [⟨"a", 1, none⟩, ⟨"b", 3, none⟩] } 2 = none := by decide
theorem witness_decode_of_encode : (Instr.store 255).wellFormed = true ∧ encode (.store 255) = [20, 255] := by decide
theorem witness_what_decodes : decode [33, 255, 7] = .ok (.jmp 255, [7]) := rfl
theorem witness_program :
    (∀ i ∈ [Instr.jmp 2, Instr.halt], i.wellFormed = true) ∧ [Instr.jmp 2, Instr.halt].flatMap encode = [33, 2, 0] := by decide

/-! ### Witnesses: engines, phases and steps -/

/-- Two peripherals with states of two types: a list that an operation extends, and a flag that one flips. -/
abbrev TinySlots : Type := List Int × Bool × Unit

/-- An engine with those peripherals, one instruction that calls the first and halts, and either value of UNRESOLVED_EXECUTE. -/
def tinyEngine (u : UnresolvedExecute) : Engine TinySlots where
  config := { bareConfig 8 8 256 with instructionTable := [(0, ⟨"halt", 1, some "HALT"⟩)], unresolvedExecute := u }
  tableEffect := fun _ s => .next (setHalt { s with periph := ([3] ++ s.periph.1, s.periph.2) })
  peripherals := .cons ⟨[], fun _ => [7], [fun args slot => (args ++ slot, slot.head?)]⟩
    (.cons ⟨true, fun b => b, [fun _ b => (!b, none)]⟩ .nil)

theorem tinyEngine_wellFormed (u : UnresolvedExecute) : (tinyEngine u).WellFormed where
  config := by cases u <;> decide
  resolver := fun _ _ _ hf => by cases hf
  tableEffects := fun _ _ _ s _ => .inl ⟨_, rfl, .tail _ _ (.tail s _ .refl (.peripheral 0 0 [3] _ s.periph.1.head? rfl)) .halt⟩
  resolverEffects := fun _ _ _ hf => by cases hf
  pipeline := by show 1 ≤ 3; decide
  customs := by
    intro f hf
    simp [Engine.phases, tinyEngine, defaultPipeline] at hf

/-- The same with a custom pipeline of one phase. -/
def tinyCustomEngine : Engine TinySlots :=
  { tinyEngine .halt with pipeline := some [.custom fun s => .next (setMemory (tinyEngine .halt).config (-1) 300 s)] }

theorem tinyCustomEngine_wellFormed : tinyCustomEngine.WellFormed where
  config := (tinyEngine_wellFormed .halt).config
  resolver := (tinyEngine_wellFormed .halt).resolver
  tableEffects := fun _ _ _ s _ => .inl ⟨_, rfl, .tail _ _ (.tail s _ .refl (.peripheral 0 0 [3] _ s.periph.1.head? rfl)) .halt⟩
  resolverEffects := fun _ _ _ hf => by cases hf
  pipeline := by show 1 ≤ 1; decide
  customs := by
    intro f hf s _
    simp only [tinyCustomEngine, Engine.phases, Option.getD_some, List.mem_singleton, Phase.custom.injEq] at hf
    subst hf
    exact ⟨_, rfl, .tail s _ .refl (.memory (-1) 300)⟩

/-- A running state of those engines, at a given phase, its peripheral's slot filled. -/
def tinyState (cells : List Int) (registers : List Nat) (phase : Nat) : State TinySlots where
  memory := Memory.ofValues 8 0 cells
  registers := registers
  periph := ([7], true, ())
  isHalted := false
  pipelineStep := phase
  executionStep := 0

theorem witness_fetch :
    (tinyEngine .halt).WellFormed ∧ (tinyEngine .halt).pipeline = none
    ∧ Inv (tinyEngine .halt) (tinyState [9] [0, 1, 5] 0)
    ∧ (tinyState [9] [0, 1, 5] 0).isHalted = false ∧ (tinyState [9] [0, 1, 5] 0).pipelineStep = 0 :=
  ⟨tinyEngine_wellFormed _, rfl, ⟨rfl, rfl, by decide, by decide, by decide⟩, rfl, rfl⟩

/-- At the last address; IS resolves, and it does not. -/
theorem witness_increment :
    (tinyEngine .halt).WellFormed ∧ (tinyEngine .halt).pipeline = none
    ∧ (Inv (tinyEngine .halt) (tinyState [] [255, 0, 0] 1)
      ∧ lookup (tinyEngine .halt).config (getRegister _ (tinyEngine .halt).config.is (tinyState [] [255, 0, 0] 1)) = some ⟨"halt", 1, some "HALT"⟩)
    ∧ (Inv (tinyEngine .halt) (tinyState [] [255, 9, 0] 1)
      ∧ lookup (tinyEngine .halt).config (getRegister _ (tinyEngine .halt).config.is (tinyState [] [255, 9, 0] 1)) = none) :=
  ⟨tinyEngine_wellFormed _, rfl, ⟨⟨rfl, rfl, by decide, by decide, by decide⟩, rfl⟩,
    ⟨⟨rfl, rfl, by decide, by decide, by decide⟩, rfl⟩⟩

theorem witness_unresolved :
    (tinyEngine .halt).WellFormed ∧ (tinyEngine .halt).pipeline = none
    ∧ (tinyEngine .halt).config.unresolvedExecute = .halt
    ∧ Inv (tinyEngine .halt) (tinyState [9] [0, 1, 5] 0)
    ∧ 9 = getMemory (tinyEngine .halt).config (getRegister _ (tinyEngine .halt).config.ip (tinyState [9] [0, 1, 5] 0)) (tinyState [9] [0, 1, 5] 0) % 2 ^ 8
    ∧ lookup (tinyEngine .halt).config 9 = none :=
  ⟨tinyEngine_wellFormed _, rfl, rfl, ⟨rfl, rfl, by decide, by decide, by decide⟩, by decide⟩

theorem witness_unresolved_nop :
    (tinyEngine .nop).WellFormed ∧ (tinyEngine .nop).pipeline = none
    ∧ (tinyEngine .nop).config.unresolvedExecute = .nop
    ∧ Inv (tinyEngine .nop) (tinyState [9] [0, 1, 5] 0)
    ∧ 9 = getMemory (tinyEngine .nop).config (getRegister _ (tinyEngine .halt).config.ip (tinyState [9] [0, 1, 5] 0)) (tinyState [9] [0, 1, 5] 0) % 2 ^ 8
    ∧ lookup (tinyEngine .nop).config 9 = none :=
  ⟨tinyEngine_wellFormed _, rfl, rfl, ⟨rfl, rfl, by decide, by decide, by decide⟩, by decide⟩

theorem witness_argument_refused :
    (tinyEngine .halt).WellFormed
    ∧ lookup (tinyEngine .halt).config (getRegister _ (tinyEngine .halt).config.is (tinyState [] [0, 99, 0] 0)) = none :=
  ⟨tinyEngine_wellFormed _, rfl⟩

theorem witness_frozen : (tinyEngine .halt).WellFormed ∧ (setHalt (tinyState [9] [0, 1, 5] 2)).isHalted = true :=
  ⟨tinyEngine_wellFormed _, rfl⟩

/-- The opcode resolves, and (`witness_unresolved`) it does not. -/
theorem witness_cycle :
    (tinyEngine .halt).WellFormed ∧ (tinyEngine .halt).pipeline = none
    ∧ Inv (tinyEngine .halt) (tinyState [0] [0, 1, 5] 0) ∧ (tinyState [0] [0, 1, 5] 0).isHalted = false
    ∧ (tinyState [0] [0, 1, 5] 0).pipelineStep = 0 ∧ (lookup (tinyEngine .halt).config 0).isSome = true :=
  ⟨tinyEngine_wellFormed _, rfl, ⟨rfl, rfl, by decide, by decide, by decide⟩, rfl, rfl, rfl⟩

/-- A custom pipeline meets the hypotheses of the statements about every engine. -/
theorem witness_engine_step :
    tinyCustomEngine.WellFormed ∧ Inv tinyCustomEngine (tinyState [9] [0, 1, 5] 0) :=
  ⟨tinyCustomEngine_wellFormed, ⟨rfl, rfl, by decide, by decide, by decide⟩⟩

/-- The evidence with which the host asks of those engines. -/
def tinyEvidence (u : UnresolvedExecute) : Decidable (tinyEngine u).WellFormed :=
  isTrue (tinyEngine_wellFormed u)

/-- A run that ends by a halt before the pulls are used up. -/
theorem witness_run :
    (tinyEngine .halt).WellFormed ∧ Inv (tinyEngine .halt) (tinyState [0] [0, 1, 5] 0)
    ∧ (@run TinySlots (tinyEngine .halt) (tinyEvidence _) 4 (tinyState [0] [0, 1, 5] 0)).length = 3 :=
  ⟨tinyEngine_wellFormed _, ⟨rfl, rfl, by decide, by decide, by decide⟩, rfl⟩

/-- The table's mnemonic, through the host's request. -/
theorem test_assembleFor :
    @assembleFor TinySlots (tinyEngine .halt) (tinyEvidence _) ⟨0, 0⟩ "HALT 7".toList
      = .ok (.ok [0, 7] [(0, 0, 0), (1, 0, 5)]) := rfl

theorem test_boot :
    (nextState? (@boot TinySlots (tinyEngine .halt) (tinyEvidence _) [9, 300] (some [0, 1, 5]))).map
        (fun t => (t.memory, t.registers, t.periph))
      = some ([(0, 9), (1, 44)], [0, 1, 5], ([7], true, ())) := by decide

/-- A step from the middle of a custom pipeline's run that counts a cycle, with a program in memory. -/
theorem witness_step_counts :
    tinyCustomEngine.WellFormed ∧ Inv tinyCustomEngine (tinyState [9] [0, 1, 5] 0)
    ∧ (tinyState [9] [0, 1, 5] 0).isHalted = false
    ∧ ∃ t : State TinySlots, engineStep tinyCustomEngine (tinyState [9] [0, 1, 5] 0) = .next t :=
  ⟨tinyCustomEngine_wellFormed, ⟨rfl, rfl, by decide, by decide, by decide⟩, rfl, _, rfl⟩

/-- Two steps from phase 1 of an instruction in memory, across the return to phase 0, the machine running before each. -/
theorem witness_steps_count :
    (tinyEngine .halt).WellFormed ∧ Inv (tinyEngine .halt) (tinyState [0] [1, 0, 5] 1)
    ∧ (∃ t : State TinySlots, engineSteps (tinyEngine .halt) 2 (tinyState [0] [1, 0, 5] 1) = .next t ∧ t.executionStep = 1)
    ∧ (∀ j : Nat, j < 2 → ∀ u : State TinySlots, engineSteps (tinyEngine .halt) j (tinyState [0] [1, 0, 5] 1) = .next u →
        u.isHalted = false) := by
  refine ⟨tinyEngine_wellFormed _, ⟨rfl, rfl, by decide, by decide, by decide⟩, ⟨_, rfl, rfl⟩, ?_⟩
  intro j hj u hu
  match j, hj with
  | 0, _ => cases hu; rfl
  | 1, _ => cases hu; rfl

/-- Three steps of a new machine, the last of them the one that halts it. -/
theorem witness_steps_count_from_new :
    @newState TinySlots (tinyEngine .halt) (tinyEvidence _) = .next (freshState (tinyEngine .halt))
    ∧ (∃ t : State TinySlots, engineSteps (tinyEngine .halt) 3 (freshState (tinyEngine .halt)) = .next t ∧ t.isHalted = true)
    ∧ (∀ j : Nat, j < 3 → ∀ u : State TinySlots, engineSteps (tinyEngine .halt) j (freshState (tinyEngine .halt)) = .next u →
        u.isHalted = false) := by
  refine ⟨rfl, ⟨_, rfl, rfl⟩, ?_⟩
  intro j hj u hu
  match j, hj with
  | 0, _ => cases hu; rfl
  | 1, _ => cases hu; rfl
  | 2, _ => cases hu; rfl

/-- Each of the two peripherals, and one that the configuration does not have. -/
theorem witness_peripheral :
    peripheralCall (tinyEngine .halt) 0 0 [3] (tinyState [] [0, 0, 0] 0)
      = some ({ tinyState [] [0, 0, 0] 0 with periph := ([3, 7], true, ()) }, some 7)
    ∧ peripheralCall (tinyEngine .halt) 1 0 [3] (tinyState [] [0, 0, 0] 0)
      = some ({ tinyState [] [0, 0, 0] 0 with periph := ([7], false, ()) }, none)
    ∧ peripheralCall (tinyEngine .halt) 2 0 [3] (tinyState [] [0, 0, 0] 0) = none := ⟨rfl, rfl, rfl⟩

/-! ### Witnesses: REF8 -/

/-- Such a state meets the invariants when its parts are in range. -/
theorem inv_st (cells : List Int) (registers : List Nat) (hm : Memory.wf 256 8 (Memory.ofValues 8 0 cells) = true)
    (hl : registers.length = 4) (hr : ∀ v ∈ registers, v < 256) (hi : registers.getD 0 0 < 256) :
    Inv ref8Engine (st cells registers) :=
  ⟨hm, hl, hr, hi, (by decide : 0 < 3)⟩

theorem witness_step_runs :
    (State.reset.withFetchWord 16 0b0000010100010001).isHalted = false
    ∧ (State.reset.withFetchWord 16 0b0000010100010001).pipelineStep = 2
    ∧ decode [getRegister ref8 regIS (State.reset.withFetchWord 16 0b0000010100010001),
        getMemory ref8 ((getRegister ref8 regIP (State.reset.withFetchWord 16 0b0000010100010001) : Int) - 1)
          (State.reset.withFetchWord 16 0b0000010100010001)] = .ok (.ldr0 5, []) := ⟨rfl, rfl, rfl⟩

/-- A one-cell instruction at the last address, and a two-cell one whose operand is the cell at 0. -/
theorem witness_cycle_runs :
    (Inv ref8Engine (setMemory ref8 255 21 (st [9] [255, 0, 0, 0]))
      ∧ decode [getMemory ref8 255 (setMemory ref8 255 21 (st [9] [255, 0, 0, 0])),
          getMemory ref8 256 (setMemory ref8 255 21 (st [9] [255, 0, 0, 0]))] = .ok (.add, [9]))
    ∧ (Inv ref8Engine (setMemory ref8 255 17 (st [9] [255, 0, 0, 0]))
      ∧ decode [getMemory ref8 255 (setMemory ref8 255 17 (st [9] [255, 0, 0, 0])),
          getMemory ref8 256 (setMemory ref8 255 17 (st [9] [255, 0, 0, 0]))] = .ok (.ldr0 9, [])) :=
  ⟨⟨⟨rfl, rfl, by decide, by decide, by decide⟩, rfl⟩, ⟨⟨rfl, rfl, by decide, by decide, by decide⟩, rfl⟩⟩

theorem witness_four_registers : State.reset.registers.length = 4 := rfl
theorem witness_at_halt : AtOpcode 0 (st [0] [0, 7, 7, 7]) := ⟨inv_st _ _ rfl rfl (by decide) (by decide), rfl, rfl, rfl⟩
theorem witness_at_nop : AtOpcode 1 (st [1] [0, 7, 7, 7]) := ⟨inv_st _ _ rfl rfl (by decide) (by decide), rfl, rfl, rfl⟩
theorem witness_at_ldr0 : AtOpcode 17 (st [17, 5] [0, 7, 7, 7]) := ⟨inv_st _ _ rfl rfl (by decide) (by decide), rfl, rfl, rfl⟩
theorem witness_at_ldr1 : AtOpcode 18 (st [18, 5] [0, 7, 7, 7]) := ⟨inv_st _ _ rfl rfl (by decide) (by decide), rfl, rfl, rfl⟩
theorem witness_at_load : AtOpcode 19 (st [19, 1] [0, 7, 7, 7]) := ⟨inv_st _ _ rfl rfl (by decide) (by decide), rfl, rfl, rfl⟩
/-- A store whose address is the operand cell's own. -/
theorem witness_at_store :
    AtOpcode 20 (st [20, 1] [0, 7, 7, 7])
    ∧ 1 = getMemory ref8 ((getRegister ref8 regIP (st [20, 1] [0, 7, 7, 7]) : Int) + 1) (st [20, 1] [0, 7, 7, 7]) :=
  ⟨⟨inv_st _ _ rfl rfl (by decide) (by decide), rfl, rfl, rfl⟩, rfl⟩
theorem witness_at_add : AtOpcode 21 (st [21] [0, 7, 255, 1]) := ⟨inv_st _ _ rfl rfl (by decide) (by decide), rfl, rfl, rfl⟩
theorem witness_at_sub : AtOpcode 22 (st [22] [0, 7, 0, 1]) := ⟨inv_st _ _ rfl rfl (by decide) (by decide), rfl, rfl, rfl⟩
theorem witness_at_swap : AtOpcode 23 (st [23] [0, 7, 3, 9]) := ⟨inv_st _ _ rfl rfl (by decide) (by decide), rfl, rfl, rfl⟩
theorem witness_at_jmp : AtOpcode 33 (st [33, 255] [0, 7, 7, 7]) := ⟨inv_st _ _ rfl rfl (by decide) (by decide), rfl, rfl, rfl⟩
/-- Taken and not taken. -/
theorem witness_at_jz :
    (AtOpcode 34 (st [34, 9] [0, 7, 0, 7]) ∧ getRegister ref8 regR0 (st [34, 9] [0, 7, 0, 7]) = 0)
    ∧ (AtOpcode 34 (st [34, 9] [0, 7, 1, 7]) ∧ getRegister ref8 regR0 (st [34, 9] [0, 7, 1, 7]) ≠ 0) :=
  ⟨⟨⟨inv_st _ _ rfl rfl (by decide) (by decide), rfl, rfl, rfl⟩, rfl⟩,
    ⟨⟨inv_st _ _ rfl rfl (by decide) (by decide), rfl, rfl, rfl⟩, by decide⟩⟩
/-- A store to the cell after it, where a NOP stands. -/
theorem witness_stored_cell :
    AtOpcode 20 (st [20, 2, 1] [0, 7, 0, 7])
    ∧ getMemory ref8 ((getRegister ref8 regIP (st [20, 2, 1] [0, 7, 0, 7]) : Int) + 1) (st [20, 2, 1] [0, 7, 0, 7])
        = (getRegister ref8 regIP (st [20, 2, 1] [0, 7, 0, 7]) + 2) % 256 :=
  ⟨⟨inv_st _ _ rfl rfl (by decide) (by decide), rfl, rfl, rfl⟩, rfl⟩
/-- The lowest opcode that REF8U's resolver resolves. -/
theorem witness_undocumented :
    Inv ref8UEngine (st [128, 7] [0, 0, 0, 0]) ∧ (st [128, 7] [0, 0, 0, 0]).isHalted = false
    ∧ (st [128, 7] [0, 0, 0, 0]).pipelineStep = 0 ∧ 128 = getMemory ref8U 0 (st [128, 7] [0, 0, 0, 0]) :=
  ⟨⟨rfl, rfl, by decide, by decide, by decide⟩, rfl, rfl, rfl⟩
/-- A step from a state that is not the reset state. -/
theorem witness_step_keeps :
    Inv ref8Engine (st [17, 5] [0, 7, 7, 7])
    ∧ step (st [17, 5] [0, 7, 7, 7]) = .next (advancePipeline 3 (fetch ref8 (st [17, 5] [0, 7, 7, 7]))) :=
  ⟨inv_st _ _ rfl rfl (by decide) (by decide), rfl⟩

/-! ### Witnesses: the host and the assembler -/

/-- As many values as cells, and one more. -/
theorem witness_bulk_load_memory :
    odd10.wellFormed = true ∧ (List.replicate 10 (-1 : Int)).length ≤ odd10.numMemoryAddresses
    ∧ odd10.numMemoryAddresses < (List.replicate 11 (-1 : Int)).length := by decide
/-- The largest values the duty allows, and the first IP value it does not. -/
theorem witness_bulk_load_registers :
    odd10.wellFormed = true
    ∧ ([9, 15, 15].length ≤ odd10.registerNames.length
      ∧ (∀ i : Nat, i < 3 → (0 : Int) ≤ [9, 15, 15].getD i 0 ∧ ([9, 15, 15] : List Int).getD i 0 < 2 ^ 4)
      ∧ ([9, 15, 15] : List Int).getD 0 0 < 10)
    ∧ ¬ ([10, 15, 15] : List Int).getD 0 0 < 10 := by decide
/-- A state that the host reaches by a write between two phases; and a halted one that it writes to, with no reset. -/
theorem witness_reachable :
    @HostReachable TinySlots (tinyEngine .halt) (tinyEvidence _) (setMemory (tinyEngine .halt).config 0 9
        (advancePipeline 3 (fetch (tinyEngine .halt).config (freshState (tinyEngine .halt)))))
    ∧ ∃ s t : State TinySlots, @HostReachable TinySlots (tinyEngine .halt) (tinyEvidence _) s ∧ s.isHalted = true
        ∧ @transact TinySlots (tinyEngine .halt) (tinyEvidence _) (.setMemory 0 9) s = .next (t, .done)
        ∧ Transaction.setMemory 0 9 ≠ .reset :=
  letI := tinyEvidence .halt
  ⟨.transact _ _ (.setMemory 0 9) .done (.transact _ _ .step .done (.new _ rfl) rfl) rfl,
    _, _, .transact _ _ .step .done (.transact _ _ .step .done (.transact _ _ .step .done (.new _ rfl) rfl) rfl) rfl, rfl, rfl,
    by decide⟩
/-- A transaction from a state that meets the invariants, mid-instruction, by a register's name. -/
theorem witness_transaction :
    Inv (tinyEngine .halt) (tinyState [9] [0, 1, 5] 1)
    ∧ @transact TinySlots (tinyEngine .halt) (tinyEvidence _) (.setRegister "A" 300) (tinyState [9] [0, 1, 5] 1)
        = .next (tinyState [9] [0, 1, 44] 1, .done) :=
  ⟨⟨rfl, rfl, by decide, by decide, by decide⟩, rfl⟩
/-- A token resolved at each of the four places of the precedence, and one that is not. -/
theorem witness_precedence :
    resolveToken [("5".toList, 9)] [("5".toList, 3)] "5".toList = some 9
    ∧ resolveToken [] [("5".toList, 3)] "5".toList = some 3
    ∧ resolveToken [] [] ['\'', 'A', '\''] = some 65 ∧ resolveToken [] [] "007".toList = some 7
    ∧ resolveToken [] [] "5x".toList = none := ⟨rfl, rfl, rfl, rfl, rfl⟩
/-- A token in the middle of a line, after a label definition and before a comment. -/
theorem witness_token : (⟨1, 3, "B".toList⟩ : Token) ∈ operandTokens "X\nA: B // c".toList := by
  show _ ∈ [(⟨0, 0, "X".toList⟩ : Token), ⟨1, 3, "B".toList⟩]
  decide
/-- R75 outside ASCII: e with an acute accent is changed by conversion to upper case, its capital and a caseless letter are not. -/
theorem test_upper_case :
    (changedByUpperCase (Char.ofNat 233), changedByUpperCase (Char.ofNat 201), changedByUpperCase (Char.ofNat 1488))
      = (true, false, false) := by decide
/-- REF8's mnemonics meet the hypotheses of the source's examples. -/
theorem witness_source_examples :
    ref8.mnemonics.lookup "LDR0".toList = some 17 ∧ ref8.mnemonics.lookup "5".toList = none
    ∧ ref8.mnemonics.lookup "JMP".toList = some 33 ∧ ref8.mnemonics.lookup "HALT".toList = some 0
    ∧ ref8.mnemonics.lookup "FOO".toList = none := by decide
theorem witness_assembled :
    assemble ⟨1, 0⟩ ref8.mnemonics "L1: JMP L1".toList = .ok [33, 0] [(0, 1, 4), (1, 1, 8)] := rfl

end Sys2Proof.Tests
end

/-! PROOF. O55: the reference configurations meet R13 and R120, and an engine that does not is refused by every request. -/

namespace Sys2Proof.Machine

section Support

variable {P : Type} {e : Engine P}

/-! ### What every engine of the reference table shares -/

/-- R130: the default phases are the engine's own. -/
theorem custom_not_mem_phases (hd : e.pipeline = none) (f : State P → Result P) : Phase.custom f ∉ e.phases := by
  simp [phases_default hd, defaultPipeline]

/-- R114, R116: the operand read has no value exactly where nothing resolves for IS. -/
theorem executingOperand_eq_none_iff (c : Config) (s : State P) :
    executingOperand c s = none ↔ lookup c (getRegister c c.is s) = none := by
  unfold executingOperand getArgument
  cases lookup c (getRegister c c.is s) with
  | none => simp
  | some h => by_cases hl : h.ipIncrement = 1 <;> simp [hl]

/-- R150: every row of REF8's table has an instruction, whatever the operand. -/
theorem instrOf_isSome_of_mem_opcodeRows {op : Nat} {h : InstructionHeader} (hm : (op, h) ∈ opcodeRows) (arg : Nat) :
    ∃ i : Instr, instrOf op arg = some i := by
  have hk : op ∈ opcodeRows.map Prod.fst := List.mem_map_of_mem hm
  simp only [opcodeRows, List.map_cons, List.map_nil, List.mem_cons, List.not_mem_nil, or_false] at hk
  rcases hk with rfl | rfl | rfl | rfl | rfl | rfl | rfl | rfl | rfl | rfl | rfl <;> exact ⟨_, rfl⟩

/-! ### REF8 and its variants -/

/-- R162: REF8 with any resolver and either value of UNRESOLVED_EXECUTE. -/
def ref8Variant (resolver : Option (Nat → Option InstructionHeader)) (u : UnresolvedExecute) : Config :=
  { ref8 with undocumentedOpcodeResolver := resolver, unresolvedExecute := u }

/-- R162: the engine of such a variant, the effects of REF8's table with any effects for the resolver's answers. -/
def ref8VariantEngine (resolver : Option (Nat → Option InstructionHeader)) (u : UnresolvedExecute)
    (resolverEffect : Nat → State → Result) : Engine Unit where
  config := ref8Variant resolver u
  tableEffect := ref8Effect (ref8Variant resolver u)
  resolverEffect := resolverEffect
  peripherals := .nil

theorem ref8Engine_eq_variant : ref8Engine = ref8VariantEngine none .halt fun _ _ => .refused .noEffect := rfl

theorem ref8UEngine_eq_variant : ref8UEngine = ref8VariantEngine (some ref8UResolver) .halt fun _ s => .next s := rfl

theorem ref8NEngine_eq_variant : ref8NEngine = ref8VariantEngine none .nop fun _ _ => .refused .noEffect := rfl

section Variant

variable (resolver : Option (Nat → Option InstructionHeader)) (u : UnresolvedExecute) (resolverEffect : Nat → State → Result)

/-- The plain-data part of R13 looks at neither the resolver nor UNRESOLVED_EXECUTE. -/
theorem ref8Variant_wellFormed : (ref8Variant resolver u).wellFormed = true :=
  show ref8.wellFormed = true by decide

/-- A write to a register of REF8 is an allowed write of every variant, which has the same registers. -/
theorem accessorWrite_setRegister_ref8 (r : Register ref8) (v : Int) (s : State) :
    AccessorWrite (ref8VariantEngine resolver u resolverEffect) s (setRegister ref8 r v s) :=
  AccessorWrite.register (e := ref8VariantEngine resolver u resolverEffect) r v

/-- A write to a cell of REF8 is an allowed write of every variant, which has the same memory. -/
theorem accessorWrite_setMemory_ref8 (a v : Int) (s : State) :
    AccessorWrite (ref8VariantEngine resolver u resolverEffect) s (setMemory ref8 a v s) :=
  AccessorWrite.memory (e := ref8VariantEngine resolver u resolverEffect) a v

/-- R120 for the meanings of R151 to R161: each answers a next state by the accessors alone. -/
theorem exec_next_accessorWrites (i : Instr) (s : State) :
    ∃ t : State, exec i s = .next t ∧ AccessorWrites (ref8VariantEngine resolver u resolverEffect) s t := by
  have reg := accessorWrite_setRegister_ref8 resolver u resolverEffect
  cases i with
  | halt => exact ⟨_, rfl, .one .halt⟩
  | nop => exact ⟨_, rfl, .refl⟩
  | ldr0 imm => exact ⟨_, rfl, .one (reg regR0 _ s)⟩
  | ldr1 imm => exact ⟨_, rfl, .one (reg regR1 _ s)⟩
  | load addr => exact ⟨_, rfl, .one (reg regR0 _ s)⟩
  | store addr => exact ⟨_, rfl, .one (accessorWrite_setMemory_ref8 resolver u resolverEffect _ _ s)⟩
  | add => exact ⟨_, rfl, .one (reg regR0 _ s)⟩
  | sub => exact ⟨_, rfl, .one (reg regR0 _ s)⟩
  | swap => exact ⟨_, rfl, .tail _ _ (.one (reg regR0 _ s)) (reg regR1 _ _)⟩
  | jmp target => exact ⟨_, rfl, .one (reg regIP _ s)⟩
  | jz target =>
    by_cases hz : getRegister ref8 regR0 s = 0
    · exact ⟨_, if_pos hz, .one (reg regIP _ s)⟩
    · exact ⟨_, if_neg hz, .refl⟩

/-- R120, R116: the effect of every opcode of the table is within the contract, in every state; it is refused only where nothing
resolves for IS. -/
theorem ref8Effect_executeContract {op : Nat} {h : InstructionHeader} (hm : (op, h) ∈ opcodeRows) :
    ExecuteContract (ref8VariantEngine resolver u resolverEffect) (ref8Effect (ref8Variant resolver u) op) := by
  intro s _
  cases ha : executingOperand (ref8Variant resolver u) s with
  | none => exact .inr ⟨(executingOperand_eq_none_iff _ s).mp ha, by simp only [ref8Effect, ha]⟩
  | some arg =>
    obtain ⟨i, hi⟩ := instrOf_isSome_of_mem_opcodeRows hm arg
    obtain ⟨t, ht, hw⟩ := exec_next_accessorWrites resolver u resolverEffect i s
    exact .inl ⟨t, by simp only [ref8Effect, ha, hi, ht], hw⟩

variable {resolver resolverEffect}

/-- R13, R162: a variant of REF8 is well formed when what its resolver can return is. -/
theorem ref8VariantEngine_wellFormed
    (hr : ∀ (f : Nat → Option InstructionHeader) (op : Nat) (h : InstructionHeader), resolver = some f → f op = some h →
      1 ≤ h.ipIncrement ∧ ExecuteContract (ref8VariantEngine resolver u resolverEffect) (resolverEffect op)) :
    (ref8VariantEngine resolver u resolverEffect).WellFormed where
  config := ref8Variant_wellFormed resolver u
  resolver f op h hf hh := (hr f op h hf hh).1
  tableEffects _ _ hm := ref8Effect_executeContract resolver u resolverEffect hm
  resolverEffects f op h hf hh := (hr f op h hf hh).2
  pipeline := by simp [length_default (e := ref8VariantEngine resolver u resolverEffect) rfl]
  customs f hf := absurd hf (custom_not_mem_phases rfl f)

end Variant

theorem ref8Engine_wellFormed : ref8Engine.WellFormed :=
  ref8Engine_eq_variant ▸ ref8VariantEngine_wellFormed .halt fun _ _ _ hf => by cases hf

theorem ref8NEngine_wellFormed : ref8NEngine.WellFormed :=
  ref8NEngine_eq_variant ▸ ref8VariantEngine_wellFormed .nop fun _ _ _ hf => by cases hf

/-- R162: every answer of REF8U's resolver has two cells. -/
theorem ref8UResolver_ipIncrement {op : Nat} {h : InstructionHeader} (hh : ref8UResolver op = some h) : h.ipIncrement = 2 := by
  unfold ref8UResolver at hh
  split at hh
  · cases hh; rfl
  · cases hh

theorem ref8UEngine_wellFormed : ref8UEngine.WellFormed := by
  rw [ref8UEngine_eq_variant]
  refine ref8VariantEngine_wellFormed .halt fun f op h hf hh => ?_
  cases hf
  exact ⟨by simp [ref8UResolver_ipIncrement hh], fun s _ => .inl ⟨s, rfl, .refl⟩⟩

/-! ### The configurations with an empty table -/

/-- R163: where no Instruction is there, R120 asks nothing, and the plain data decide. -/
theorem bareEngine_wellFormed {c : Config} (hc : c.wellFormed = true) (ht : c.instructionTable = [])
    (hr : c.undocumentedOpcodeResolver = none) : (bareEngine c).WellFormed where
  config := hc
  resolver _ _ _ hf := absurd (hr.symm.trans hf) nofun
  tableEffects _ _ hm := absurd (ht ▸ hm) List.not_mem_nil
  resolverEffects _ _ _ hf := absurd (hr.symm.trans hf) nofun
  pipeline := by simp [length_default (e := bareEngine c) rfl]
  customs f hf := absurd hf (custom_not_mem_phases rfl f)

/-! ### The refusals of R13 -/

section Refusals

variable [Decidable e.WellFormed] (hw : ¬ e.WellFormed)

include hw

theorem newState_of_illFormed : newState e = .refused .illFormedConfiguration :=
  if_neg hw

theorem resetState_of_illFormed (s : State P) : resetState e s = .refused .illFormedConfiguration :=
  newState_of_illFormed hw

theorem transact_of_illFormed (tr : Transaction) (s : State P) : transact e tr s = .refused .illFormedConfiguration :=
  if_neg hw

theorem run_of_illFormed (k : Nat) (s : State P) : run e k s = [.refused .illFormedConfiguration] :=
  if_neg hw

theorem assembleFor_of_illFormed (b : Bases) (source : Text) : assembleFor e b source = .error .illFormedConfiguration :=
  if_neg hw

/-- R196: the boot sequence stops at its first request, `newState`. -/
theorem boot_of_illFormed (program : List Int) (registers : Option (List Int)) :
    boot e program registers = .refused .illFormedConfiguration := by
  simp only [boot, newState_of_illFormed hw]

end Refusals

end Support

/-- Settles O55: REF8, REF8U and REF8N as variants of one engine whose effects are accessor writes, the three engines of R163 by
their plain data; the refusals one request at a time. -/
theorem referenceConfigurationsAreWellFormed : Obligations.ReferenceConfigurationsAreWellFormed := by
  unfold Obligations.ReferenceConfigurationsAreWellFormed
  refine ⟨⟨ref8Engine_wellFormed, ref8UEngine_wellFormed, ref8NEngine_wellFormed, ?ref4, ?odd10, ?narrow3⟩, ?refusals⟩
  case ref4 => exact bareEngine_wellFormed (by decide) rfl rfl
  case odd10 => exact bareEngine_wellFormed (by decide) rfl rfl
  case narrow3 => exact bareEngine_wellFormed (by decide) rfl rfl
  case refusals =>
    intro P e _ s hw
    exact ⟨newState_of_illFormed hw, resetState_of_illFormed hw s, fun tr => transact_of_illFormed hw tr s,
      fun k => run_of_illFormed hw k s, assembleFor_of_illFormed hw, boot_of_illFormed hw⟩

end Sys2Proof.Machine

/-! PROOF. The family of spec/10_state.md: the invariants R34 hold at reset, are kept by every step and by every transaction of
the host, and a halted machine stays as it is (R35). -/

namespace Sys2Proof.Machine

section Support

variable {P : Type} {e : Engine P} {s t : State P}

/-! ### Every phase of a well-formed engine writes by the accessors alone -/

/-- R133: where an instruction resolves for IS, `execute` is its effect. -/
theorem execute_of_lookup_eq_some {h : InstructionHeader}
    (hl : lookup e.config (getRegister e.config e.config.is s) = some h) :
    execute e s = e.effect (getRegister e.config e.config.is s) s := by
  simp only [execute, hl]

/-- R171, R143: where none resolves, `execute` is the engine's one abnormal event. -/
theorem execute_of_lookup_eq_none (hl : lookup e.config (getRegister e.config e.config.is s) = none) :
    execute e s = .next (unresolvedHalt e.config s) := by
  simp only [execute, hl]

/-- R171, R143: an unresolved opcode sets the halt flag or does nothing. -/
theorem accessorWrites_unresolvedHalt (c : Config) (s : State P) : AccessorWrites e s (unresolvedHalt c s) := by
  unfold unresolvedHalt
  cases c.unresolvedExecute with
  | halt => exact .one .halt
  | nop => exact .refl

/-- R133, R120: `execute` answers a next state by allowed writes, whether or not an instruction resolves. -/
theorem Engine.WellFormed.execute_next (hw : e.WellFormed) (hi : Inv e s) :
    ∃ t : State P, execute e s = .next t ∧ AccessorWrites e s t := by
  cases hl : lookup e.config (getRegister e.config e.config.is s) with
  | some h =>
    rw [execute_of_lookup_eq_some hl]
    exact hw.effect_next hi hl
  | none => exact ⟨_, execute_of_lookup_eq_none hl, accessorWrites_unresolvedHalt _ s⟩

/-- R131 to R133, R137: every phase of the active pipeline answers a next state by allowed writes. -/
theorem Engine.WellFormed.runPhase_next {p : Phase P} (hw : e.WellFormed) (hi : Inv e s) (hp : p ∈ e.phases) :
    ∃ t : State P, runPhase e p s = .next t ∧ AccessorWrites e s t := by
  cases p with
  | fetch => exact ⟨_, rfl, .one (.register _ _)⟩
  | increment => exact ⟨_, rfl, .one (.register _ _)⟩
  | execute => exact hw.execute_next hi
  | custom f => exact hw.customs f hp s hi

/-- I4: the phase index names a phase. -/
theorem Inv.phase_at (hi : Inv e s) : ∃ p : Phase P, e.phases[s.pipelineStep]? = some p :=
  ⟨_, List.getElem?_eq_getElem hi.pipelineStep⟩

/-- R34, R134: a step of a well-formed engine is never refused where the invariants hold, and keeps them. -/
theorem Engine.WellFormed.engineStep_next (hw : e.WellFormed) (hi : Inv e s) :
    ∃ t : State P, engineStep e s = .next t ∧ Inv e t := by
  cases hh : s.isHalted with
  | true => exact ⟨s, engineStep_halted hh, hi⟩
  | false =>
    obtain ⟨p, hp⟩ := hi.phase_at
    obtain ⟨u, hu, hwr⟩ := hw.runPhase_next hi (List.mem_of_getElem? hp)
    have hiu : Inv e u := (AccessorWrites.spec hw.config hwr).1 hi
    exact ⟨_, engineStep_running hh hp hu, hiu.advancePipeline⟩

theorem Inv.engineStep (hw : e.WellFormed) (hi : Inv e s) (h : engineStep e s = .next t) : Inv e t := by
  obtain ⟨u, hu, hiu⟩ := hw.engineStep_next hi
  cases hu.symm.trans h
  exact hiu

/-! ### The bulk loads -/

/-- R193, R194: everything `bulkLoadMemory` can answer. -/
theorem bulkLoadMemory_next {c : Config} {vs : List Int} (h : bulkLoadMemory c vs s = .next t) :
    vs.length ≤ c.numMemoryAddresses ∧ t = { s with memory := Memory.ofValues c.memoryBitWidth 0 vs } := by
  unfold bulkLoadMemory at h
  split at h
  · rename_i hl
    cases h
    exact ⟨hl, rfl⟩
  · cases h

/-- R195: everything `bulkLoadRegisters` can answer. -/
theorem bulkLoadRegisters_next {c : Config} {vs : List Int} (h : bulkLoadRegisters c vs s = .next t) :
    vs.length ≤ c.registerNames.length ∧ registerDutyFrom c 0 vs = true
      ∧ t = { s with registers := vs.map Int.toNat ++ List.replicate (c.registerNames.length - vs.length) 0 } := by
  unfold bulkLoadRegisters at h
  split at h
  · rename_i hd
    rw [Bool.and_eq_true, decide_eq_true_eq] at hd
    cases h
    exact ⟨hd.1, hd.2, rfl⟩
  · cases h

/-- R195, R201 H3: the duty for values from position `i` on asks each to be a register value, and the one at IP's position, when
the list reaches it, to be an address. -/
theorem registerDutyFrom_iff (c : Config) (vs : List Int) (i : Nat) :
    registerDutyFrom c i vs = true ↔
      (∀ v ∈ vs, 0 ≤ v ∧ v < 2 ^ c.registerBitWidth)
      ∧ ∀ (j : Nat) (v : Int), i + j = c.ip.val → vs[j]? = some v → v < c.numMemoryAddresses := by
  induction vs generalizing i with
  | nil => simp [registerDutyFrom]
  | cons x vs ih =>
    simp only [registerDutyFrom, Bool.and_eq_true, Bool.or_eq_true, decide_eq_true_eq, bne_iff_ne, ih, List.forall_mem_cons]
    constructor
    · rintro ⟨⟨hx, hip⟩, hvs, hrest⟩
      refine ⟨⟨hx, hvs⟩, fun j v hj hv => ?_⟩
      cases j with
      | zero =>
        cases hv
        exact hip.resolve_left (not_not_intro hj)
      | succ j => exact hrest j v (by omega) hv
    · rintro ⟨⟨hx, hvs⟩, hip⟩
      refine ⟨⟨hx, ?_⟩, hvs, fun j v hj hv => hip (j + 1) v (by omega) hv⟩
      by_cases hi : i = c.ip.val
      · exact .inr (hip 0 x hi rfl)
      · exact .inl hi

/-- R195: the register at each position of a loaded register file, zeros past the list. -/
theorem getD_map_toNat_append_replicate (vs : List Int) (k i : Nat) :
    (vs.map Int.toNat ++ List.replicate k 0).getD i 0 = (vs.getD i 0).toNat := by
  induction vs generalizing i with
  | nil => simp [List.getD_eq_getElem?_getD, List.getElem?_getD_replicate_default_eq]
  | cons x vs ih =>
    cases i with
    | zero => rfl
    | succ i => exact ih i

/-- R193: a memory that is overwritten wholesale is canonical again. -/
theorem Inv.bulkLoadMemory {vs : List Int} (hi : Inv e s) (h : bulkLoadMemory e.config vs s = .next t) : Inv e t := by
  obtain ⟨hl, rfl⟩ := bulkLoadMemory_next h
  exact ⟨Memory.wf_ofValues vs hl, hi.registerCount, hi.registers, hi.ip, hi.pipelineStep⟩

/-- R195, H3: the registers are stored raw, so the ranges I2 and I3 are the host's duty and nothing else. -/
theorem Inv.bulkLoadRegisters {vs : List Int} (hc : e.config.wellFormed = true) (hi : Inv e s)
    (h : bulkLoadRegisters e.config vs s = .next t) : Inv e t := by
  obtain ⟨-, -, hn, -, -⟩ := Config.wellFormed_facts hc
  obtain ⟨hl, hd, rfl⟩ := bulkLoadRegisters_next h
  obtain ⟨hrange, hip⟩ := (registerDutyFrom_iff _ _ _).mp hd
  refine ⟨hi.memory, ?count, ?range, ?ip, hi.pipelineStep⟩
  case count => simp [hl]
  case range =>
    intro v hv
    rcases List.mem_append.mp hv with hv | hv
    · obtain ⟨x, hx, rfl⟩ := List.mem_map.mp hv
      obtain ⟨h0, hlt⟩ := hrange x hx
      exact (Int.toNat_lt h0).mpr (by exact_mod_cast hlt)
    · rw [List.eq_of_mem_replicate hv]
      exact Nat.two_pow_pos _
  case ip =>
    have hread := getD_map_toNat_append_replicate vs (e.config.registerNames.length - vs.length) e.config.ip.val
    refine lt_of_eq_of_lt hread ?_
    rw [List.getD_eq_getElem?_getD]
    cases hv : vs[e.config.ip.val]? with
    | none => exact hn
    | some v =>
      have hlt := hip _ v (Nat.zero_add _) hv
      rw [Option.getD_some]
      omega

/-! ### The host's transactions -/

/-- R34, R190: the state that a well-formed engine starts from. -/
theorem inv_freshState (hw : e.WellFormed) : Inv e (freshState e) := by
  obtain ⟨-, -, hn, -, -⟩ := Config.wellFormed_facts hw.config
  refine ⟨rfl, List.length_replicate, fun v hv => ?_, ?_, hw.pipeline⟩
  · rw [List.eq_of_mem_replicate hv]
    exact Nat.two_pow_pos _
  · have hz : getRegister e.config e.config.ip (freshState e) = 0 := by simp [getRegister, freshState]
    rw [hz]
    exact hn

/-- R33: the reset state of REF8 is the state its `newState` builds. -/
theorem reset_eq_freshState : State.reset = freshState ref8Engine := rfl

section Transactions

variable [Decidable e.WellFormed] {tr : Transaction} {r : Reply P}

theorem inv_newState (h : newState e = .next s) : Inv e s := by
  obtain ⟨hw, rfl⟩ := newState_next h
  exact inv_freshState hw

/-- R34, R202: every transaction keeps the invariants. -/
theorem Inv.transact (hi : Inv e s) (h : transact e tr s = .next (t, r)) : Inv e t := by
  have hw : e.WellFormed := (transact_next h).1
  rcases transact_state h with rfl | ⟨-, hr⟩ | ⟨-, hs⟩ | ⟨vs, -, hb⟩ | ⟨vs, -, hb⟩ | ⟨name, q, v, -, -, rfl⟩ | ⟨a, v, -, rfl⟩
  · exact hi
  · exact inv_newState hr
  · exact hi.engineStep hw hs
  · exact hi.bulkLoadMemory hb
  · exact hi.bulkLoadRegisters hw.config hb
  · exact hi.setRegister hw.config q v
  · exact hi.setMemory hw.config a v

/-- I5: no transaction but `reset` clears the halt flag, from whatever state. -/
theorem transact_isHalted (h : transact e tr s = .next (t, r)) (hh : s.isHalted = true) (hr : tr ≠ .reset) :
    t.isHalted = true := by
  rcases transact_state h with rfl | ⟨he, -⟩ | ⟨-, hs⟩ | ⟨vs, -, hb⟩ | ⟨vs, -, hb⟩ | ⟨name, q, v, -, -, rfl⟩ | ⟨a, v, -, rfl⟩
  · exact hh
  · exact absurd he hr
  · cases (engineStep_halted hh).symm.trans hs
    exact hh
  · obtain ⟨-, rfl⟩ := bulkLoadMemory_next hb
    exact hh
  · obtain ⟨-, -, rfl⟩ := bulkLoadRegisters_next hb
    exact hh
  · exact hh
  · exact hh

/-- R34: the invariants hold in every state that the host can reach. -/
theorem HostReachable.inv (h : HostReachable e s) : Inv e s := by
  induction h with
  | new s h => exact inv_newState h
  | transact s t tr r _ hs ih => exact ih.transact hs

end Transactions

/-! ### A halted machine -/

/-- R35: steps on a halted machine, however many. -/
theorem engineSteps_halted (hh : s.isHalted = true) (k : Nat) : engineSteps e k s = .next s := by
  induction k with
  | zero => rfl
  | succ k ih => simp only [engineSteps, engineStep_halted hh, ih]

/-- R136, D31: pulls on a halted machine hand nothing. -/
theorem pulled_halted (hh : s.isHalted = true) (k : Nat) : pulled e k s = [] := by
  cases k with
  | zero => rfl
  | succ k => rw [pulled, if_pos hh]

end Support

/-! ### The statements -/

/-- Settles O58: every phase answers by accessor writes, each of which keeps the invariants. -/
theorem everyEngineStepAnswersAndKeepsTheInvariants : Obligations.EveryEngineStepAnswersAndKeepsTheInvariants := by
  unfold Obligations.EveryEngineStepAnswersAndKeepsTheInvariants
  exact fun _ _ _ hw hi => hw.engineStep_next hi

/-- Settles O57: REF8 is a well-formed engine (O55). -/
theorem everyStepKeepsTheInvariants : Obligations.EveryStepKeepsTheInvariants := by
  unfold Obligations.EveryStepKeepsTheInvariants
  exact fun _ _ hi hs => hi.engineStep ref8Engine_wellFormed hs

/-- Settles O60, one transaction at a time. -/
theorem everyTransactionKeepsTheInvariants : Obligations.EveryTransactionKeepsTheInvariants := by
  unfold Obligations.EveryTransactionKeepsTheInvariants
  intro P e _
  exact ⟨fun _ h => inv_newState h, fun _ _ _ _ hi h => hi.transact h, fun _ _ _ _ h hh hr => transact_isHalted h hh hr⟩

/-- Settles O20: a step on a halted state answers it, so any number does, and no pull is handed anything. -/
theorem haltedMachineIsFrozen : Obligations.HaltedMachineIsFrozen := by
  unfold Obligations.HaltedMachineIsFrozen
  intro P e k s hh
  refine ⟨engineSteps_halted hh k, ?_⟩
  intro _ hw
  rw [run_of_wellFormed hw, pulled_halted hh]

/-- Settles O59, by induction on the host's transactions. -/
theorem invariantsHoldInEveryReachableState : Obligations.InvariantsHoldInEveryReachableState := by
  unfold Obligations.InvariantsHoldInEveryReachableState
  intro P e _ s hs
  exact ⟨hs.inv, fun _ _ _ h hh hr => transact_isHalted h hh hr⟩

/-- Settles O56: reset is the new state of a well-formed engine. -/
theorem resetMeetsTheInvariants : Obligations.ResetMeetsTheInvariants := by
  unfold Obligations.ResetMeetsTheInvariants
  rw [reset_eq_freshState]
  exact inv_freshState ref8Engine_wellFormed

end Sys2Proof.Machine

/-! PROOF. The family of spec/20_memory.md: where the operands of an instruction are read, across the top of memory too (R54),
and that a store into code is what the next fetch reads (R52). -/

namespace Sys2Proof.Machine

section Support

variable {P : Type} {c : Config} {s : State P} {h : InstructionHeader}

/-! ### Operands after `increment` -/

/-- R43: addresses that agree modulo N are one cell. -/
theorem getMemory_eq_of_modEq (hn : 1 ≤ c.numMemoryAddresses) {a b : Int} (hab : a ≡ b [ZMOD c.numMemoryAddresses])
    (s : State P) : getMemory c a s = getMemory c b s := by
  unfold getMemory
  rw [(constrainAddress_eq_iff hn a b).mpr hab]

/-- R107: where N divides `2^REGW`, the mask on the way into IP loses nothing that the wrap keeps. -/
theorem wrapIP_modEq (hn : 1 ≤ c.numMemoryAddresses) (hd : c.numMemoryAddresses ∣ 2 ^ c.registerBitWidth) (v : Int) :
    (wrapIP c v : Int) ≡ v [ZMOD c.numMemoryAddresses] := by
  have hd' : (c.numMemoryAddresses : Int) ∣ 2 ^ c.registerBitWidth := by exact_mod_cast hd
  unfold wrapIP Int.ModEq
  rw [constrainAddress_cast hn, constrainRegisterValue_cast, Int.emod_emod, Int.emod_emod_of_dvd v hd']

theorem lengthOf_of_lookup {op : Nat} (hl : lookup c op = some h) : lengthOf c op = h.ipIncrement := by
  simp only [lengthOf, hl]

/-- R114: the operand read where an instruction resolves for IS. -/
theorem getArgument_of_lookup (hl : lookup c (getRegister c c.is s) = some h) (n : Int) :
    getArgument c n s = some (getMemory c ((getRegister c c.ip s : Int) - ((h.ipIncrement : Int) - n)) s) := by
  simp only [getArgument, hl]

@[simp] theorem getArgument_advancePipeline (c : Config) (n : Int) (k : Nat) (s : State P) :
    getArgument c n (advancePipeline k s) = getArgument c n s := rfl

/-- The register count of I6 is what every register read and write needs. -/
theorem register_lt_length (hr : s.registers.length = c.registerNames.length) (r : Register c) : r.val < s.registers.length :=
  r.isLt.trans_eq hr.symm

/-- R132: `increment` moves IP and no other register, so the opcode stays in IS. -/
theorem getRegister_is_increment (hc : c.wellFormed = true) (s : State P) :
    getRegister c c.is (increment c s) = getRegister c c.is s := by
  obtain ⟨-, -, -, -, hne⟩ := Config.wellFormed_facts hc
  exact getRegister_setRegister_ne c c.ip _ s c.is hne.symm

/-- R114: after `increment` the operand is read relative to the new IP, in the memory as it was. -/
theorem getArgument_increment (hc : c.wellFormed = true) (hl : lookup c (getRegister c c.is s) = some h) (n : Int) :
    getArgument c n (increment c s)
      = some (getMemory c ((getRegister c c.ip (increment c s) : Int) - ((h.ipIncrement : Int) - n)) s) := by
  have hl' : lookup c (getRegister c c.is (increment c s)) = some h := by rwa [getRegister_is_increment hc]
  rw [getArgument_of_lookup hl', getMemory_increment]

/-- R54: where N divides `2^REGW`, that is the cell `n` after the opcode, across the top of memory too. -/
theorem getArgument_increment_of_dvd (hc : c.wellFormed = true) (hr : s.registers.length = c.registerNames.length)
    (hl : lookup c (getRegister c c.is s) = some h) (hd : c.numMemoryAddresses ∣ 2 ^ c.registerBitWidth) (n : Int) :
    getArgument c n (increment c s) = some (getMemory c ((getRegister c c.ip s : Int) + n) s) := by
  obtain ⟨-, -, hn, -, -⟩ := Config.wellFormed_facts hc
  have hip : getRegister c c.ip (increment c s) = wrapIP c ((getRegister c c.ip s : Int) + h.ipIncrement) := by
    rw [getRegister_increment c s c.ip (register_lt_length hr c.ip), if_pos rfl, lengthOf_of_lookup hl]
  have hmod := (wrapIP_modEq hn hd ((getRegister c c.ip s : Int) + h.ipIncrement)).sub_right ((h.ipIncrement : Int) - n)
  rw [getArgument_increment hc hl, hip, getMemory_eq_of_modEq hn hmod]
  congr 2
  ring

/-! ### The state before `execute`, two phases into a cycle of the default pipeline -/

/-- R131, R132: the state that the first two steps of a cycle make. -/
def beforeExecute (c : Config) (s : State P) : State P :=
  advancePipeline 3 (increment c (advancePipeline 3 (fetch c s)))

/-- R131: what `fetch` puts in IS, the cell at IP masked to a register (D32). -/
def fetchedOpcode (c : Config) (s : State P) : Nat :=
  constrainRegisterValue c.registerBitWidth (getMemory c (getRegister c c.ip s) s)

@[simp] theorem beforeExecute_isHalted (c : Config) (s : State P) : (beforeExecute c s).isHalted = s.isHalted := rfl

theorem beforeExecute_pipelineStep (hp : s.pipelineStep = 0) : (beforeExecute c s).pipelineStep = 2 := by
  simp [beforeExecute, hp]

/-- R131 on the registers of a well-formed configuration: the opcode in IS, every other register as before. -/
theorem getRegister_fetch_of_wellFormed (hc : c.wellFormed = true) (hr : s.registers.length = c.registerNames.length)
    (q : Register c) : getRegister c q (fetch c s) = if q = c.is then fetchedOpcode c s else getRegister c q s := by
  obtain ⟨-, -, -, -, hne⟩ := Config.wellFormed_facts hc
  rw [getRegister_fetch c s q (register_lt_length hr c.is), storedInRegister, if_neg hne.symm, fetchedOpcode]

/-- R131, R132: the registers before `execute`. -/
theorem getRegister_beforeExecute (hc : c.wellFormed = true) (hr : s.registers.length = c.registerNames.length)
    (q : Register c) :
    getRegister c q (beforeExecute c s) =
      if q = c.ip then wrapIP c ((getRegister c c.ip s : Int) + lengthOf c (fetchedOpcode c s))
      else if q = c.is then fetchedOpcode c s else getRegister c q s := by
  obtain ⟨-, -, -, -, hne⟩ := Config.wellFormed_facts hc
  have hr' : (advancePipeline 3 (fetch c s)).registers.length = c.registerNames.length := by simpa using hr
  rw [beforeExecute, getRegister_advancePipeline, getRegister_increment c _ q (register_lt_length hr' c.ip)]
  simp only [getRegister_advancePipeline, getRegister_fetch_of_wellFormed hc hr, if_neg hne, if_true]

/-- R54 before `execute`: operand `n` is the cell `n` after the opcode. -/
theorem getArgument_beforeExecute (hc : c.wellFormed = true) (hr : s.registers.length = c.registerNames.length)
    (hl : lookup c (fetchedOpcode c s) = some h) (hd : c.numMemoryAddresses ∣ 2 ^ c.registerBitWidth) (n : Int) :
    getArgument c n (beforeExecute c s) = some (getMemory c ((getRegister c c.ip s : Int) + n) s) := by
  obtain ⟨-, -, -, -, hne⟩ := Config.wellFormed_facts hc
  have hr' : (advancePipeline 3 (fetch c s)).registers.length = c.registerNames.length := by simpa using hr
  have hl' : lookup c (getRegister c c.is (advancePipeline 3 (fetch c s))) = some h := by
    rwa [getRegister_advancePipeline, getRegister_fetch_of_wellFormed hc hr, if_pos rfl]
  rw [beforeExecute, getArgument_advancePipeline, getArgument_increment_of_dvd hc hr' hl' hd,
    getRegister_advancePipeline, getRegister_fetch_of_wellFormed hc hr, if_neg hne, getMemory_advancePipeline, getMemory_fetch]

/-- R134, R138: a whole cycle of the default pipeline, from what its `execute` phase answers. -/
theorem engineSteps_cycle {e : Engine P} {u : State P} (hd : e.pipeline = none) (hr : s.isHalted = false)
    (hp : s.pipelineStep = 0) (hu : execute e (beforeExecute e.config s) = .next u) :
    engineSteps e 3 s = .next (advancePipeline 3 u) := by
  have h1 := engineStep_fetch hd hr hp
  have h2 : engineStep e (advancePipeline 3 (fetch e.config s)) = .next (beforeExecute e.config s) :=
    engineStep_increment hd (by simpa using hr) (by simp [hp])
  have h3 := engineStep_execute hd (by simpa using hr) (beforeExecute_pipelineStep hp) hu
  simp only [engineSteps, h1, h2, h3]

end Support

/-! ### A cycle of REF8 -/

section Ref8

variable {op : Nat} {s : State} {h : InstructionHeader}

theorem ref8_ip : ref8.ip = regIP := by decide

theorem ref8_is : ref8.is = regIS := by decide

theorem ref8_wellFormed : ref8.wellFormed = true := ref8Engine_wellFormed.config

/-- R64: the operand that an instruction of REF8 at IP will read, 0 where it has no operand cell. -/
def operandAtIP (h : InstructionHeader) (s : State) : Nat :=
  if h.ipIncrement = 1 then 0 else getMemory ref8 ((getRegister ref8 regIP s : Int) + 1) s

/-- I6, as register reads and writes take it. -/
theorem AtOpcode.registerCount (hs : AtOpcode op s) : s.registers.length = ref8.registerNames.length :=
  hs.inv.registerCount

/-- I2: a register of REF8 holds less than 256. -/
theorem getRegister_ref8_lt (hi : Inv ref8Engine s) (r : Register ref8) : getRegister ref8 r s < 256 := by
  have hr : r.val < s.registers.length := register_lt_length hi.registerCount r
  rw [getRegister, List.getD_eq_getElem _ _ hr]
  exact hi.registers _ (List.getElem_mem hr)

/-- I1: the opcode of an instruction of REF8 is a cell, so IS takes it as it is. -/
theorem AtOpcode.fetchedOpcode_eq (hs : AtOpcode op s) : fetchedOpcode ref8 s = op := by
  have hlt : op < 2 ^ 8 := hs.opcode ▸ Memory.read_lt s.memory 0 _ hs.inv.memory
  rw [fetchedOpcode, constrainRegisterValue_natCast, ref8_ip, hs.opcode]
  exact Nat.mod_eq_of_lt hlt

/-- R131, R132: the registers before `execute`, where an instruction stands at IP. -/
theorem AtOpcode.getRegister_beforeExecute (hs : AtOpcode op s) (hl : lookup ref8 op = some h) (q : Register ref8) :
    getRegister ref8 q (beforeExecute ref8 s) =
      if q = regIP then (getRegister ref8 regIP s + h.ipIncrement) % 256
      else if q = regIS then op else getRegister ref8 q s := by
  have hwrap : wrapIP ref8 ((getRegister ref8 regIP s : Int) + (h.ipIncrement : Int))
      = (getRegister ref8 regIP s + h.ipIncrement) % 256 := by
    rw [wrapIP, ← Nat.cast_add, constrainRegisterValue_natCast, constrainAddress_natCast]
    exact Nat.mod_mod _ 256
  rw [Sys2Proof.Machine.getRegister_beforeExecute ref8_wellFormed hs.registerCount, hs.fetchedOpcode_eq,
    lengthOf_of_lookup hl, ref8_ip, ref8_is, hwrap]

/-- R133, R114: before `execute`, the operand is the one after the opcode. -/
theorem AtOpcode.executingOperand_beforeExecute (hs : AtOpcode op s) (hl : lookup ref8 op = some h) :
    executingOperand ref8 (beforeExecute ref8 s) = some (operandAtIP h s) := by
  have his : lookup ref8 (getRegister ref8 ref8.is (beforeExecute ref8 s)) = some h := by
    rw [ref8_is, hs.getRegister_beforeExecute hl]
    exact hl
  have harg : getArgument ref8 1 (beforeExecute ref8 s) = some (getMemory ref8 ((getRegister ref8 regIP s : Int) + 1) s) :=
    getArgument_beforeExecute ref8_wellFormed hs.registerCount (hs.fetchedOpcode_eq.symm ▸ hl) (by decide) 1
  simp only [executingOperand, his, harg, operandAtIP]
  split <;> rfl

/-- R133: the `execute` phase of the cycle runs the meaning of the instruction at IP. -/
theorem AtOpcode.execute_beforeExecute {i : Instr} (hs : AtOpcode op s) (hl : lookup ref8 op = some h)
    (hi : instrOf op (operandAtIP h s) = some i) :
    execute ref8Engine (beforeExecute ref8 s) = exec i (beforeExecute ref8 s) := by
  have his : getRegister ref8Engine.config ref8Engine.config.is (beforeExecute ref8 s) = op :=
    hs.getRegister_beforeExecute hl regIS
  rw [execute_of_lookup_eq_some (h := h) (his.symm ▸ hl), his, effect_ref8Engine hl]
  simp only [ref8Effect, hs.executingOperand_beforeExecute hl, hi]

/-- R138: three steps of the host from an instruction of REF8 are its meaning on the state before `execute`. -/
theorem AtOpcode.run_cycle {i : Instr} {u : State} (hs : AtOpcode op s) (hl : lookup ref8 op = some h)
    (hi : instrOf op (operandAtIP h s) = some i) (hu : exec i (beforeExecute ref8 s) = .next u) :
    Host.Core.run Sys2Proof.core 3 s = .next (advancePipeline 3 u) := by
  rw [core_run_eq_engineSteps]
  exact engineSteps_cycle rfl hs.running hs.start ((hs.execute_beforeExecute hl hi).trans hu)

/-- R47, R113: a value that fits a cell of REF8 is read back at the address of the store. -/
theorem getMemory_setMemory_ref8_same {v : Nat} (hv : v < 256) (a : Int) (s : State) :
    getMemory ref8 a (setMemory ref8 a v s) = v := by
  rw [getMemory_setMemory, if_pos rfl, constrainMemoryValue_natCast]
  exact Nat.mod_eq_of_lt hv

/-- R131: a fetch of a value that fits a register of REF8 leaves that value in IS. -/
theorem getRegister_is_fetch_ref8 {v : Nat} (hr : s.registers.length = ref8.registerNames.length) (hv : v < 256)
    (hm : getMemory ref8 (getRegister ref8 regIP s) s = v) : getRegister ref8 regIS (fetch ref8 s) = v := by
  rw [← ref8_is, getRegister_fetch_of_wellFormed ref8_wellFormed hr, if_pos rfl, fetchedOpcode, ref8_ip, hm,
    constrainRegisterValue_natCast]
  exact Nat.mod_eq_of_lt hv

/-- R134: one step more from a state of REF8 that stands between two instructions is the `fetch` of the next. -/
theorem run_then_fetch {k : Nat} {t : State} (hk : Host.Core.run Sys2Proof.core k s = .next t) (hr : t.isHalted = false)
    (hp : t.pipelineStep = 0) : Host.Core.run Sys2Proof.core (k + 1) s = .next (advancePipeline 3 (fetch ref8 t)) := by
  rw [core_run_eq_engineSteps] at hk ⊢
  rw [engineSteps_succ_last, hk]
  exact engineStep_fetch rfl hr hp

/-! ### The cycle of a STORE -/

/-- R156: the state after the cycle of a STORE at IP. -/
def afterStore (s : State) : State :=
  advancePipeline 3 (setMemory ref8 (getMemory ref8 ((getRegister ref8 regIP s : Int) + 1) s) (getRegister ref8 regR0 s)
    (beforeExecute ref8 s))

theorem lookup_ref8_store : lookup ref8 20 = some ⟨"the cell at operand from R0", 2, some "STORE"⟩ := rfl

/-- R138, R156: three steps from a STORE; R0 is read before any register but IP and IS has changed. -/
theorem AtOpcode.run_store (hs : AtOpcode 20 s) : Host.Core.run Sys2Proof.core 3 s = .next (afterStore s) := by
  refine hs.run_cycle lookup_ref8_store rfl ?_
  rw [exec, execStore, hs.getRegister_beforeExecute lookup_ref8_store]
  rfl

theorem AtOpcode.afterStore_pipelineStep (hs : AtOpcode 20 s) : (afterStore s).pipelineStep = 0 := by
  simp [afterStore, beforeExecute_pipelineStep hs.start]

theorem afterStore_registers_length (s : State) : (afterStore s).registers.length = s.registers.length := by
  simp [afterStore, beforeExecute]

/-- R132, R156: a STORE leaves IP at the cell after its operand. -/
theorem AtOpcode.getRegister_ip_afterStore (hs : AtOpcode 20 s) :
    getRegister ref8 regIP (afterStore s) = (getRegister ref8 regIP s + 2) % 256 :=
  hs.getRegister_beforeExecute lookup_ref8_store regIP

/-- R156, R47: the cell that the operand addresses holds R0. -/
theorem AtOpcode.getMemory_operand_afterStore (hs : AtOpcode 20 s) :
    getMemory ref8 (getMemory ref8 ((getRegister ref8 regIP s : Int) + 1) s) (afterStore s) = getRegister ref8 regR0 s :=
  getMemory_setMemory_ref8_same (getRegister_ref8_lt hs.inv regR0) _ _

end Ref8

/-! ### The statements -/

/-- Settles O8: `increment` keeps IS and the memory, and IP plus the length is not changed modulo N by the mask where N divides
`2^REGW`. -/
theorem operandCellsFollowTheOpcode : Obligations.OperandCellsFollowTheOpcode := by
  unfold Obligations.OperandCellsFollowTheOpcode
  exact fun _ _ _ _ n hc hr hl =>
    ⟨getArgument_increment hc hl n, fun hd => getArgument_increment_of_dvd hc hr hl hd n⟩

/-- Settles O40: the cycle of the STORE writes R0 at the address that IP holds after it, and the fourth step fetches there. -/
theorem storedCellIsFetchedNext : Obligations.StoredCellIsFetchedNext := by
  unfold Obligations.StoredCellIsFetchedNext
  intro s hs hoperand
  have hphase : (afterStore s).pipelineStep = 0 := hs.afterStore_pipelineStep
  have hnext : getMemory ref8 (getRegister ref8 regIP (afterStore s)) (afterStore s) = getRegister ref8 regR0 s := by
    rw [hs.getRegister_ip_afterStore, ← hoperand]
    exact hs.getMemory_operand_afterStore
  have his : getRegister ref8 regIS (fetch ref8 (afterStore s)) = getRegister ref8 regR0 s :=
    getRegister_is_fetch_ref8 ((afterStore_registers_length s).trans hs.registerCount)
      (getRegister_ref8_lt hs.inv regR0) hnext
  exact ⟨_, run_then_fetch hs.run_store hs.running hphase, his, by simp [hphase]⟩

end Sys2Proof.Machine

/-! PROOF. The family of spec/30_encoding.md, its decoding half: decoding and encoding agree, dense tables, an undocumented
opcode of REF8U. -/

namespace Sys2Proof.Machine

section Encoding

variable {op arg : Nat} {cells rest : List Nat} {i : Instr} {h : InstructionHeader}

/-! ### Decoding and encoding -/

/-- R60, R63: every instruction agrees with its row of the opcode table. -/
theorem encodedCells (i : Instr) : Laws.EncodedCells.Statement i := by
  cases i with
  | halt => exact Laws.EncodedCells.halt
  | nop => exact Laws.EncodedCells.nop
  | ldr0 imm => exact Laws.EncodedCells.ldr0 imm
  | ldr1 imm => exact Laws.EncodedCells.ldr1 imm
  | load addr => exact Laws.EncodedCells.load addr
  | store addr => exact Laws.EncodedCells.store addr
  | add => exact Laws.EncodedCells.add
  | sub => exact Laws.EncodedCells.sub
  | swap => exact Laws.EncodedCells.swap
  | jmp target => exact Laws.EncodedCells.jmp target
  | jz target => exact Laws.EncodedCells.jz target

theorem encode_of_operand_eq_none (ho : i.operand? = none) : encode i = [opcodeOf i] := by
  simp only [encode, ho]

theorem encode_of_operand_eq_some (ho : i.operand? = some arg) : encode i = [opcodeOf i, arg] := by
  simp only [encode, ho]

/-- R63, format F1: an instruction of one cell decodes whatever follows. -/
theorem decode_one_cell (hop : op < 256) (hl : opcodeRows.lookup op = some h) (hh : h.ipIncrement = 1)
    (hi : instrOf op 0 = some i) : decode (op :: rest) = .ok (i, rest) := by
  simp only [decode, if_neg hop.not_ge, hl, if_pos hh, hi]

/-- R63, R64, format F2: an instruction of two cells takes its operand cell. -/
theorem decode_two_cells (hop : op < 256) (harg : arg < 256) (hl : opcodeRows.lookup op = some h) (hh : h.ipIncrement ≠ 1)
    (hi : instrOf op arg = some i) : decode (op :: arg :: rest) = .ok (i, rest) := by
  simp only [decode, if_neg hop.not_ge, hl, if_neg hh, if_neg harg.not_ge, hi]

/-- Everything that decodes does so in format F1 or in format F2. -/
theorem decode_cases (hd : decode cells = .ok (i, rest)) :
    ∃ (op : Nat) (h : InstructionHeader), op < 256 ∧ opcodeRows.lookup op = some h
      ∧ ((h.ipIncrement = 1 ∧ cells = op :: rest ∧ instrOf op 0 = some i)
        ∨ (h.ipIncrement ≠ 1 ∧ ∃ arg : Nat, arg < 256 ∧ cells = op :: arg :: rest ∧ instrOf op arg = some i)) := by
  cases cells with
  | nil => cases hd
  | cons op tail =>
    simp only [decode] at hd
    split at hd
    · cases hd
    rename_i hop
    split at hd
    · cases hd
    rename_i h hl
    refine ⟨op, h, not_le.mp hop, hl, ?_⟩
    split at hd
    · rename_i hh
      split at hd
      · rename_i j hj
        cases hd
        exact .inl ⟨hh, rfl, hj⟩
      · cases hd
    · rename_i hh
      split at hd
      · cases hd
      · rename_i arg tail
        split at hd
        · cases hd
        rename_i harg
        split at hd
        · rename_i j hj
          cases hd
          exact .inr ⟨hh, arg, not_le.mp harg, rfl, hj⟩
        · cases hd

/-- R60, R64: an instruction made of an opcode and an operand has that opcode, and no other operand. -/
theorem instrOf_eq_some (hi : instrOf op arg = some i) : opcodeOf i = op ∧ ∀ a ∈ i.operand?, a = arg := by
  unfold instrOf at hi
  split at hi <;> cases hi <;> simp [opcodeOf, Instr.operand?]

theorem wellFormed_iff : i.wellFormed = true ↔ ∀ a ∈ i.operand?, a < 256 := by
  simp [Instr.wellFormed, Option.all_eq_true]

/-- R60 to R64: a well-formed instruction is read back from its cells. -/
theorem decode_encode (hw : i.wellFormed = true) (rest : List Nat) : decode (encode i ++ rest) = .ok (i, rest) := by
  obtain ⟨⟨h, hl, hlen⟩, -, hcells, hi⟩ := encodedCells i
  have hcells := hcells hw
  cases ho : i.operand? with
  | none =>
    rw [encode_of_operand_eq_none ho] at hlen hcells ⊢
    rw [ho] at hi
    exact decode_one_cell (hcells _ (by simp)) hl hlen.symm hi
  | some arg =>
    rw [encode_of_operand_eq_some ho] at hlen hcells ⊢
    rw [ho] at hi
    exact decode_two_cells (hcells _ (by simp)) (hcells _ (by simp)) hl (by simp [← hlen]) hi

/-- R60 to R64, R70: no cells but its own decode to an instruction, and none decode to one that is not well formed. -/
theorem decode_eq_ok (hd : decode cells = .ok (i, rest)) : i.wellFormed = true ∧ cells = encode i ++ rest := by
  obtain ⟨⟨h', hl', hlen⟩, -⟩ := encodedCells i
  obtain ⟨op, h, -, hl, ⟨hh, rfl, hi⟩ | ⟨hh, arg, harg, rfl, hi⟩⟩ := decode_cases hd
  all_goals
    obtain ⟨rfl, ho⟩ := instrOf_eq_some hi
    cases hl.symm.trans hl'
  · cases hop : i.operand? with
    | none => exact ⟨wellFormed_iff.mpr (by simp [hop]), by simp [encode_of_operand_eq_none hop]⟩
    | some a => simp [encode_of_operand_eq_some hop, hh] at hlen
  · cases hop : i.operand? with
    | none => exact absurd hlen.symm (by simpa [encode_of_operand_eq_none hop] using hh)
    | some a =>
      obtain rfl : a = arg := ho a hop
      exact ⟨wellFormed_iff.mpr (by simpa [hop] using harg), by simp [encode_of_operand_eq_some hop]⟩

/-- R62: one instruction is walked and the walk goes on at the next boundary. -/
theorem decodeAll_of_decode (hd : decode cells = .ok (i, rest)) (fuel : Nat) :
    decodeAll (fuel + 1) cells = (decodeAll fuel rest).map (i :: ·) := by
  cases cells with
  | nil => cases hd
  | cons op tail => simp only [decodeAll, hd]

/-- R62, by induction on the program. -/
theorem decodeAll_flatMap_encode {is : List Instr} (hw : ∀ i ∈ is, i.wellFormed = true) :
    decodeAll is.length (is.flatMap encode) = .ok is := by
  induction is with
  | nil => rfl
  | cons i is ih =>
    obtain ⟨hi, his⟩ := List.forall_mem_cons.mp hw
    rw [List.flatMap_cons, List.length_cons, decodeAll_of_decode (decode_encode hi _), ih his]
    rfl

/-! ### Lookup -/

/-- R67: the numbered list is keyed by position, from the first number on. -/
theorem lookup_zipIdx_swap {β : Type} (hs : List β) (start j : Nat) :
    ((hs.zipIdx start).map fun (h, n) => (n, h)).lookup (start + j) = hs[j]? := by
  induction hs generalizing start j with
  | nil => rfl
  | cons h hs ih =>
    rw [List.zipIdx_cons, List.map_cons]
    cases j with
    | zero => simp
    | succ j =>
      have hne : (start + (j + 1) == start) = false := by simp
      rw [List.lookup_cons, hne, ← Nat.add_assoc, Nat.add_right_comm]
      exact ih (start + 1) j

theorem denseTable_lookup (hs : List InstructionHeader) (op : Nat) : (denseTable hs).lookup op = hs[op]? := by
  simpa [denseTable] using lookup_zipIdx_swap hs 0 op

/-- R65: without a resolver, `lookup` is the table's. -/
theorem lookup_of_no_resolver {c : Config} (hc : c.undocumentedOpcodeResolver = none) (op : Nat) :
    lookup c op = c.instructionTable.lookup op := by
  unfold lookup
  rw [hc]
  cases c.instructionTable.lookup op <;> rfl

/-- R150: no opcode of 128 or more is in REF8's table. -/
theorem opcodeRows_lookup_undocumented (hop : 128 ≤ op) : opcodeRows.lookup op = none := by
  by_contra hne
  have hk := opcodeRows_lookup_isSome op (Option.isSome_iff_ne_none.mpr hne)
  omega

/-- R69, R162: on REF8U an opcode from 128 on resolves to the undocumented instruction of two cells. -/
theorem lookup_ref8U_undocumented (hlo : 128 ≤ op) (hhi : op < 256) :
    lookup ref8U op = some ⟨"undocumented two-cell no-op", 2, none⟩ := by
  have ht : ref8U.instructionTable.lookup op = none := opcodeRows_lookup_undocumented hlo
  have hr : ref8UResolver op = some ⟨"undocumented two-cell no-op", 2, none⟩ := if_pos ⟨hlo, by omega⟩
  simp only [lookup, ht]
  exact hr

/-- R69, R162: and its effect is to do nothing. -/
theorem effect_ref8UEngine_undocumented (hop : 128 ≤ op) (s : State) : ref8UEngine.effect op s = .next s := by
  have ht : ref8UEngine.config.instructionTable.lookup op = none := opcodeRows_lookup_undocumented hop
  simp only [Engine.effect, ht]
  rfl

end Encoding

/-! ### The cycle of an undocumented opcode on REF8U -/

section Ref8U

variable {op : Nat} {s : State}

theorem ref8U_wellFormed : ref8U.wellFormed = true := ref8UEngine_wellFormed.config

/-- I1: an opcode of REF8U is a cell. -/
theorem opcode_ref8U_lt (hi : Inv ref8UEngine s) (hop : op = getMemory ref8U (getRegister ref8U ref8U.ip s) s) : op < 256 :=
  hop ▸ Memory.read_lt s.memory 0 _ hi.memory

/-- R131: and IS takes it as it is. -/
theorem fetchedOpcode_ref8U (hi : Inv ref8UEngine s) (hop : op = getMemory ref8U (getRegister ref8U ref8U.ip s) s) :
    fetchedOpcode ref8U s = op := by
  rw [fetchedOpcode, constrainRegisterValue_natCast, ← hop]
  exact Nat.mod_eq_of_lt (opcode_ref8U_lt hi hop)

/-- R131, R132, R162: the registers before the `execute` phase of an undocumented opcode. -/
theorem getRegister_beforeExecute_ref8U (hi : Inv ref8UEngine s)
    (hop : op = getMemory ref8U (getRegister ref8U ref8U.ip s) s) (hlo : 128 ≤ op) (q : Register ref8U) :
    getRegister ref8U q (beforeExecute ref8U s) =
      if q = ref8U.ip then (getRegister ref8U ref8U.ip s + 2) % 256
      else if q = ref8U.is then op else getRegister ref8U q s := by
  have hwrap : wrapIP ref8U ((getRegister ref8U ref8U.ip s : Int) + (2 : Nat)) = (getRegister ref8U ref8U.ip s + 2) % 256 := by
    rw [wrapIP, ← Nat.cast_add, constrainRegisterValue_natCast, constrainAddress_natCast]
    exact Nat.mod_mod _ 256
  rw [getRegister_beforeExecute ref8U_wellFormed hi.registerCount, fetchedOpcode_ref8U hi hop,
    lengthOf_of_lookup (lookup_ref8U_undocumented hlo (opcode_ref8U_lt hi hop)), hwrap]

/-- R69, R133: the `execute` phase of an undocumented opcode does nothing. -/
theorem execute_ref8U_undocumented (hi : Inv ref8UEngine s)
    (hop : op = getMemory ref8U (getRegister ref8U ref8U.ip s) s) (hlo : 128 ≤ op) :
    execute ref8UEngine (beforeExecute ref8U s) = .next (beforeExecute ref8U s) := by
  have his : getRegister ref8UEngine.config ref8UEngine.config.is (beforeExecute ref8U s) = op :=
    getRegister_beforeExecute_ref8U hi hop hlo ref8U.is
  have hl := lookup_ref8U_undocumented hlo (opcode_ref8U_lt hi hop)
  rw [execute_of_lookup_eq_some (his.symm ▸ hl), his]
  exact effect_ref8UEngine_undocumented hlo _

end Ref8U

/-! ### The statements about decoding -/

/-- Settles O14: each instruction is read back from its own cells (O12), and the walk goes on with the rest of the program. -/
theorem decodingAProgramGivesItsInstructions : Obligations.DecodingAProgramGivesItsInstructions := by
  unfold Obligations.DecodingAProgramGivesItsInstructions
  exact fun _ hw => decodeAll_flatMap_encode hw

/-- Settles O10: a dense table numbers its instructions from 0. -/
theorem denseTablesDecodeByPosition : Obligations.DenseTablesDecodeByPosition := by
  unfold Obligations.DenseTablesDecodeByPosition
  intro c hs op hc
  rw [lookup_of_no_resolver (c := { c with instructionTable := denseTable hs }) hc]
  exact denseTable_lookup hs op

/-- Settles O13: the opcode that decoded is the instruction's own, and its row says how many cells stood there. -/
theorem whatDecodesWasEncoded : Obligations.WhatDecodesWasEncoded := by
  unfold Obligations.WhatDecodesWasEncoded
  exact fun _ _ _ hd => decode_eq_ok hd

/-- Settles O12: the row of an instruction's opcode has as many cells as its encoding. -/
theorem decodeOfEncodeGivesTheInstructionBack : Obligations.DecodeOfEncodeGivesTheInstructionBack := by
  unfold Obligations.DecodeOfEncodeGivesTheInstructionBack
  exact fun _ rest hw => decode_encode hw rest

/-- Settles O41: the resolver's instruction has two cells and its effect leaves the state before `execute` as it is. -/
theorem undocumentedOpcodeRunsItsInstruction : Obligations.UndocumentedOpcodeRunsItsInstruction := by
  unfold Obligations.UndocumentedOpcodeRunsItsInstruction
  intro s op hi hr hp hop hlo
  have hreg := getRegister_beforeExecute_ref8U hi hop hlo
  refine ⟨_, engineSteps_cycle rfl hr hp (execute_ref8U_undocumented hi hop hlo), hr, hreg ref8U.ip, hreg ref8U.is,
    ⟨?count, ?others⟩, fun _ => rfl, rfl, ?phase, ?counted⟩
  case count => simp [beforeExecute]
  case others =>
    intro q hq
    obtain ⟨hip, his⟩ : q ≠ ref8U.ip ∧ q ≠ ref8U.is := by simpa using hq
    rw [getRegister_advancePipeline, hreg, if_neg hip, if_neg his]
  case phase => simp [beforeExecute_pipelineStep hp]
  case counted => simp [beforeExecute, hp]

end Sys2Proof.Machine

/-! PROOF. The family of spec/30_encoding.md, its tokens: lines, comments, and that the scan of R74 finds every run of characters
that are not white space, where it stands. -/

namespace Sys2Proof.Machine

section Tokens

variable {x : Char} {w cs rest source : Text} {line col k : Nat} {t : Token}

/-! ### Lines -/

theorem toNat_eq_lineFeed_iff (x : Char) : x.toNat = 10 ↔ x = '\n' :=
  Char.toNat_inj (d := '\n')

@[simp] theorem splitLines_lineFeed (cs : Text) : splitLines ('\n' :: cs) = [] :: splitLines cs := rfl

/-- R72: a character that is no line feed stands in the first line. -/
theorem splitLines_cons_of_ne (hx : x ≠ '\n') (cs : Text) :
    ∃ (l : Text) (ls : List Text), splitLines cs = l :: ls ∧ splitLines (x :: cs) = (x :: l) :: ls := by
  have hx' : ¬ x.toNat = 10 := (toNat_eq_lineFeed_iff x).not.mpr hx
  cases hcs : splitLines cs with
  | cons l ls => exact ⟨l, ls, rfl, by simp only [splitLines, if_neg hx', hcs]⟩
  | nil =>
    exfalso
    cases cs with
    | nil => cases hcs
    | cons y cs =>
      unfold splitLines at hcs
      split at hcs
      · cases hcs
      · split at hcs <;> cases hcs

theorem splitLines_ne_nil (cs : Text) : splitLines cs ≠ [] := by
  cases cs with
  | nil => simp [splitLines]
  | cons x cs =>
    by_cases hx : x = '\n'
    · simp [hx]
    · obtain ⟨l, ls, -, he⟩ := splitLines_cons_of_ne hx cs
      simp [he]

/-- R72: the lines with a line feed between each two are the text. -/
theorem intercalate_splitLines (cs : Text) : ['\n'].intercalate (splitLines cs) = cs := by
  induction cs with
  | nil => rfl
  | cons x cs ih =>
    by_cases hx : x = '\n'
    · subst hx
      obtain ⟨l, ls, hl⟩ := List.exists_cons_of_ne_nil (splitLines_ne_nil cs)
      rw [splitLines_lineFeed, hl, List.intercalate_cons_cons, ← hl, ih]
      rfl
    · obtain ⟨l, ls, hl, he⟩ := splitLines_cons_of_ne hx cs
      rw [hl] at ih
      rw [he, ← ih]
      cases ls with
      | nil => simp
      | cons l' ls => simp [List.intercalate_cons_cons]

theorem lineFeed_not_mem_splitLines (cs : Text) : ∀ l ∈ splitLines cs, '\n' ∉ l := by
  induction cs with
  | nil => simp [splitLines]
  | cons x cs ih =>
    by_cases hx : x = '\n'
    · subst hx
      simpa using ih
    · obtain ⟨l, ls, hl, he⟩ := splitLines_cons_of_ne hx cs
      rw [hl] at ih
      rw [he]
      simpa [Ne.symm hx] using ih

/-! ### Comments -/

theorem toNat_eq_slash_iff (x : Char) : x.toNat = 47 ↔ x = '/' :=
  Char.toNat_inj (d := '/')

@[simp] theorem stripComment_marker (cs : Text) : stripComment ('/' :: '/' :: cs) = [] := rfl

/-- R73: what does not begin with the comment marker keeps its first character. -/
theorem stripComment_cons (h : ¬ (x = '/' ∧ cs.head? = some '/')) : stripComment (x :: cs) = x :: stripComment cs := by
  rw [stripComment, if_neg]
  rw [Bool.and_eq_true, decide_eq_true_eq, toNat_eq_slash_iff, beq_iff_eq]
  rintro ⟨hx, hcs⟩
  obtain ⟨y, hy, hy'⟩ := Option.map_eq_some_iff.mp hcs
  exact h ⟨hx, (toNat_eq_slash_iff y).mp hy' ▸ hy⟩

theorem head?_append_take_one (w rest : Text) : (w ++ rest.take 1).head? = (w ++ rest).head? := by
  cases w <;> cases rest <;> rfl

/-- R73: what is cut off a line is nothing, or begins with two slashes, and no two slashes stand before them. -/
theorem stripComment_cut (l : Text) :
    ∃ rest : Text, l = stripComment l ++ rest ∧ (rest = [] ∨ ∃ r : Text, rest = '/' :: '/' :: r)
      ∧ ¬ ['/', '/'] <:+: stripComment l ++ rest.take 1 := by
  induction l with
  | nil => exact ⟨[], rfl, .inl rfl, by simp [stripComment]⟩
  | cons x cs ih =>
    by_cases hmarker : x = '/' ∧ cs.head? = some '/'
    · obtain ⟨rfl, hcs⟩ := hmarker
      obtain ⟨r, rfl⟩ : ∃ r, cs = '/' :: r := List.head?_eq_some_iff.mp hcs
      refine ⟨'/' :: '/' :: r, rfl, .inr ⟨r, rfl⟩, fun hslashes => ?_⟩
      simpa using hslashes.length_le
    · obtain ⟨rest, he, hrest, hno⟩ := ih
      rw [stripComment_cons hmarker]
      refine ⟨rest, congrArg (x :: ·) he, hrest, ?_⟩
      rintro ⟨before, after, hslashes⟩
      cases before with
      | nil =>
        obtain ⟨hx, hcs⟩ := List.cons.inj hslashes
        have hhead : (stripComment cs ++ rest.take 1).head? = some '/' := congrArg List.head? hcs.symm
        exact hmarker ⟨hx.symm, by rw [he, ← head?_append_take_one, hhead]⟩
      | cons y before => exact hno ⟨before, after, (List.cons.inj hslashes).2⟩

/-! ### Words -/

/-- R74: `w` is a word, and the text that follows does not go on with it. -/
structure WordThen (w rest : Text) : Prop where
  nonempty : w ≠ []
  nonwhite : ∀ x ∈ w, isWhite x = false
  ends : ∀ x ∈ rest.head?, isWhite x = true

/-- R74, R87: the word `w` stands in the text at column `col`, as `TokenAt` says it of a line. -/
def StandsIn (cs : Text) (col : Nat) (w : Text) : Prop :=
  ∃ before after : Text, cs = before ++ w ++ after ∧ before.length = col ∧ WordThen w after
    ∧ ∀ x ∈ before.getLast?, isWhite x = true

theorem tokenAt_iff :
    TokenAt source t ↔ ∃ l : Text, (splitLines source)[t.line]? = some l ∧ StandsIn (stripComment l) t.col t.text := by
  constructor
  · rintro ⟨l, before, after, hl, he, hcol, hne, hnonwhite, hbefore, hafter⟩
    exact ⟨l, hl, before, after, he, hcol, ⟨hne, hnonwhite, hafter⟩, hbefore⟩
  · rintro ⟨l, hl, before, after, he, hcol, ⟨hne, hnonwhite, hafter⟩, hbefore⟩
    exact ⟨l, before, after, hl, he, hcol, hne, hnonwhite, hbefore, hafter⟩

/-- A word is all of the text before the first white space. -/
theorem WordThen.takeWhile_eq (hw : WordThen w rest) : (w ++ rest).takeWhile (fun x => !isWhite x) = w := by
  have hrest : rest.takeWhile (fun x => !isWhite x) = [] := by
    cases rest with
    | nil => rfl
    | cons x rest => exact List.takeWhile_cons_of_neg (by simp [hw.ends x rfl])
  rw [List.takeWhile_append_of_pos (fun x hx => by simp [hw.nonwhite x hx]), hrest, List.append_nil]

/-- A text that does not begin with white space begins with a word. -/
theorem wordThen_takeWhile (hx : isWhite x = false) (cs : Text) :
    WordThen ((x :: cs).takeWhile fun x => !isWhite x) ((x :: cs).dropWhile fun x => !isWhite x) where
  nonempty := by simp [hx]
  nonwhite y hy := by simpa using List.mem_takeWhile_imp hy
  ends y hy := by
    have h := List.head?_dropWhile_not (fun x => !isWhite x) (x :: cs)
    rw [Option.mem_def.mp hy] at h
    simpa using h

/-- Every text is read as white space and words: one proof for a white character, one for a word, serve every text. -/
theorem words_induction {motive : Text → Prop} (nil : motive [])
    (white : ∀ (x : Char) (cs : Text), isWhite x = true → motive cs → motive (x :: cs))
    (word : ∀ w rest : Text, WordThen w rest → motive rest → motive (w ++ rest)) (cs : Text) : motive cs := by
  induction hn : cs.length using Nat.strong_induction_on generalizing cs with
  | _ n ih =>
    cases cs with
    | nil => exact nil
    | cons x cs =>
      cases hx : isWhite x with
      | true => exact white x cs hx (ih cs.length (by simp [← hn]) cs rfl)
      | false =>
        have hw := wordThen_takeWhile hx cs
        have hlen := congrArg List.length (List.takeWhile_append_dropWhile (p := fun x => !isWhite x) (l := x :: cs))
        have hpos := List.length_pos_of_ne_nil hw.nonempty
        rw [List.length_append] at hlen
        rw [← List.takeWhile_append_dropWhile (p := fun x => !isWhite x) (l := x :: cs)]
        exact word _ _ hw (ih _ (by omega) _ rfl)

theorem not_standsIn_nil (col : Nat) (w : Text) : ¬ StandsIn [] col w := by
  rintro ⟨before, after, he, -, hw, -⟩
  simp [hw.nonempty] at he

/-- Nothing stands at a white character; all that stands after it stands one column on. -/
theorem standsIn_cons_white (hx : isWhite x = true) : StandsIn (x :: cs) col w ↔ ∃ k : Nat, col = k + 1 ∧ StandsIn cs k w := by
  have hlast (before : Text) : (∀ y ∈ (x :: before).getLast?, isWhite y = true) ↔ ∀ y ∈ before.getLast?, isWhite y = true := by
    rw [List.getLast?_cons]
    cases before.getLast? <;> simp [hx]
  constructor
  · rintro ⟨before, after, he, rfl, hw, hbefore⟩
    cases before with
    | nil =>
      obtain ⟨y, w, rfl⟩ := List.exists_cons_of_ne_nil hw.nonempty
      cases he
      simp [hw.nonwhite x] at hx
    | cons y before =>
      cases he
      exact ⟨before.length, rfl, before, after, rfl, rfl, hw, (hlast before).mp hbefore⟩
  · rintro ⟨k, rfl, before, after, rfl, rfl, hw, hbefore⟩
    exact ⟨x :: before, after, rfl, rfl, hw, (hlast before).mpr hbefore⟩

/-- Where a text begins with a word, that word stands there, and all else stands after it. -/
theorem standsIn_word_append {v : Text} (hv : WordThen v rest) :
    StandsIn (v ++ rest) col w ↔ (col = 0 ∧ w = v) ∨ ∃ k : Nat, col = v.length + k ∧ StandsIn rest k w := by
  constructor
  · rintro ⟨before, after, he, rfl, hw, hbefore⟩
    rw [List.append_assoc] at he
    rcases before.eq_nil_or_concat with rfl | ⟨before, y, rfl⟩
    · refine .inl ⟨rfl, ?_⟩
      rw [← hw.takeWhile_eq, ← hv.takeWhile_eq, he]
      rfl
    · rcases List.append_eq_append_iff.mp he with ⟨gap, hgap, rfl⟩ | ⟨gap, rfl, -⟩
      · rw [hgap] at hbefore ⊢
        refine .inr ⟨gap.length, List.length_append, gap, after, (List.append_assoc _ _ _).symm, rfl, hw, fun z hz => ?_⟩
        exact hbefore z (by simp [List.getLast?_append, Option.mem_def.mp hz])
      · have hwhite : isWhite y = true := hbefore y (by simp)
        simp [hv.nonwhite y] at hwhite
  · rintro (⟨rfl, rfl⟩ | ⟨k, rfl, before, after, rfl, rfl, hw, hbefore⟩)
    · exact ⟨[], rest, rfl, rfl, hv, by simp⟩
    · refine ⟨v ++ before, after, by simp, List.length_append, hw, fun z hz => hbefore z ?_⟩
      rcases before.eq_nil_or_concat with rfl | ⟨before, y, rfl⟩
      · obtain ⟨y, w, rfl⟩ := List.exists_cons_of_ne_nil hw.nonempty
        have hwhite : isWhite y = true := hv.ends y rfl
        simp [hw.nonwhite y] at hwhite
      · simpa using hz

/-! ### The scan of a line -/

@[simp] theorem tokensFrom_nil (line col : Nat) : tokensFrom line col none [] = [] := rfl

theorem tokensFrom_white (hx : isWhite x = true) (cs : Text) :
    tokensFrom line col none (x :: cs) = tokensFrom line (col + 1) none cs := by
  rw [tokensFrom, if_pos hx]

/-- Inside a run, the scan reads on to the run's end. -/
theorem tokensFrom_some_append (hw : ∀ x ∈ w, isWhite x = false) (hrest : ∀ x ∈ rest.head?, isWhite x = true) (r : Text) :
    tokensFrom line col (some (k, r)) (w ++ rest) = ⟨line, k, r.reverse ++ w⟩ :: tokensFrom line (col + w.length) none rest := by
  induction w generalizing col r with
  | nil =>
    cases rest with
    | nil => simp [tokensFrom]
    | cons x rest => simp [tokensFrom, hrest x rfl]
  | cons y w ih =>
    obtain ⟨hy, hw⟩ := List.forall_mem_cons.mp hw
    rw [List.cons_append, tokensFrom, if_neg (by simp [hy]), ih hw]
    simp [Nat.add_assoc, Nat.add_comm 1]

/-- R74: at a word, the scan gives that word, at its column. -/
theorem tokensFrom_word (hw : WordThen w rest) :
    tokensFrom line col none (w ++ rest) = ⟨line, col, w⟩ :: tokensFrom line (col + w.length) none rest := by
  obtain ⟨y, w, rfl⟩ := List.exists_cons_of_ne_nil hw.nonempty
  obtain ⟨hy, hnonwhite⟩ := List.forall_mem_cons.mp hw.nonwhite
  rw [List.cons_append, tokensFrom, if_neg (by simp [hy]), tokensFrom_some_append hnonwhite hw.ends]
  simp [Nat.add_assoc, Nat.add_comm 1]

/-- R74, R87: the scan gives exactly the words that stand in the text. -/
theorem mem_tokensFrom_iff :
    t ∈ tokensFrom line col none cs ↔ t.line = line ∧ ∃ k : Nat, t.col = col + k ∧ StandsIn cs k t.text := by
  induction cs using words_induction generalizing col with
  | nil => simp [not_standsIn_nil]
  | white x cs hx ih =>
    rw [tokensFrom_white hx, ih]
    simp only [standsIn_cons_white hx]
    refine and_congr_right fun _ => ⟨?_, ?_⟩
    · rintro ⟨k, hk, hs⟩
      exact ⟨k + 1, by omega, k, rfl, hs⟩
    · rintro ⟨-, hk, k, rfl, hs⟩
      exact ⟨k, by omega, hs⟩
  | word w rest hw ih =>
    rw [tokensFrom_word hw, List.mem_cons, ih]
    simp only [standsIn_word_append hw]
    constructor
    · rintro (rfl | ⟨hline, k, hk, hs⟩)
      · exact ⟨rfl, 0, rfl, .inl ⟨rfl, rfl⟩⟩
      · exact ⟨hline, w.length + k, by omega, .inr ⟨k, rfl, hs⟩⟩
    · rintro ⟨hline, j, hj, ⟨rfl, htext⟩ | ⟨k, rfl, hs⟩⟩
      · obtain ⟨tline, tcol, text⟩ := t
        obtain rfl : tline = line := hline
        obtain rfl : tcol = col := hj
        obtain rfl : text = w := htext
        exact .inl rfl
      · exact .inr ⟨hline, k, by omega, hs⟩

/-- R74: the order of tokens in a text. -/
def Token.Before (t u : Token) : Prop :=
  t.line < u.line ∨ (t.line = u.line ∧ t.col < u.col)

theorem tokensFrom_pairwise (line col : Nat) (cs : Text) : (tokensFrom line col none cs).Pairwise Token.Before := by
  induction cs using words_induction generalizing col with
  | nil => exact .nil
  | white x cs hx ih =>
    rw [tokensFrom_white hx]
    exact ih (col + 1)
  | word w rest hw ih =>
    rw [tokensFrom_word hw]
    refine List.pairwise_cons.mpr ⟨fun u hu => ?_, ih _⟩
    obtain ⟨hline, k, hk, -⟩ := mem_tokensFrom_iff.mp hu
    have hpos := List.length_pos_of_ne_nil hw.nonempty
    exact .inr ⟨hline.symm, by show col < u.col; omega⟩

/-! ### The tokens of a source -/

/-- R72 to R74: the tokens are those of the lines, each with its number. -/
theorem tokensOfLines_eq_flatMap (n : Nat) (ls : List Text) :
    tokensOfLines n ls = (ls.zipIdx n).flatMap fun p => tokensFrom p.2 0 none (stripComment p.1) := by
  induction ls generalizing n with
  | nil => rfl
  | cons l ls ih => rw [tokensOfLines, ih, List.zipIdx_cons, List.flatMap_cons]

theorem mem_tokens_iff : t ∈ tokens source ↔ TokenAt source t := by
  rw [tokens, tokensOfLines_eq_flatMap, List.mem_flatMap, tokenAt_iff]
  simp only [List.mem_zipIdx_iff_getElem?, mem_tokensFrom_iff]
  constructor
  · rintro ⟨⟨l, n⟩, hl, rfl, k, hk, hs⟩
    exact ⟨l, hl, by rw [hk, Nat.zero_add]; exact hs⟩
  · rintro ⟨l, hl, hs⟩
    exact ⟨(l, t.line), hl, rfl, t.col, (Nat.zero_add _).symm, hs⟩

theorem zipIdx_pairwise_snd {α : Type} (xs : List α) (n : Nat) : (xs.zipIdx n).Pairwise fun p q => p.2 < q.2 := by
  have h : ((xs.zipIdx n).map Prod.snd).Pairwise (· < ·) := by
    rw [List.zipIdx_map_snd]
    exact List.pairwise_lt_range'
  exact List.pairwise_map.mp h

theorem tokens_pairwise (source : Text) : (tokens source).Pairwise Token.Before := by
  rw [tokens, tokensOfLines_eq_flatMap, List.pairwise_flatMap]
  refine ⟨fun p _ => tokensFrom_pairwise _ _ _, (zipIdx_pairwise_snd _ _).imp fun {p q} hpq t ht u hu => ?_⟩
  obtain ⟨htline, -⟩ := mem_tokensFrom_iff.mp ht
  obtain ⟨huline, -⟩ := mem_tokensFrom_iff.mp hu
  exact .inl (by rwa [htline, huline])

/-- R87, R88: the entries of the source map, by emission index. -/
theorem sourceMap_getElem? (b : Bases) (source : Text) (i : Nat) :
    (sourceMap b source)[i]? = ((operandTokens source)[i]?).map fun t => (i, t.line + b.line.val, t.col + b.col.val) := by
  simp [sourceMap, List.getElem?_zipIdx, Function.comp_def]

end Tokens

/-! ### The statement about the source map -/

/-- Settles O54: the scan of a line by its words (`words_induction`), the lines in their order, the first comment marker of each. -/
theorem sourceMapPlacesEveryOperandToken : Obligations.SourceMapPlacesEveryOperandToken := by
  unfold Obligations.SourceMapPlacesEveryOperandToken
  exact ⟨sourceMap_getElem?, fun _ => rfl, fun _ _ => mem_tokens_iff, tokens_pairwise,
    fun source => ⟨(intercalate_splitLines source).symm, lineFeed_not_mem_splitLines source⟩, stripComment_cut⟩

end Sys2Proof.Machine

/-! PROOF. The family of spec/30_encoding.md, its assembler: what a token resolves to, where labels stand, what a source gives. -/

namespace Sys2Proof.Machine

section Resolution

variable {l m : List (Text × Nat)} {t : Text} {source : Text}

/-! ### What one operand token resolves to -/

theorem resolveToken_of_label {a : Nat} (hl : l.lookup t = some a) : resolveToken l m t = some a := by
  simp only [resolveToken, hl]

theorem resolveToken_of_mnemonic {op : Nat} (hl : l.lookup t = none) (hm : m.lookup t = some op) :
    resolveToken l m t = some op := by
  simp only [resolveToken, hl, hm]

theorem resolveToken_of_quotedChar {code : Nat} (hl : l.lookup t = none) (hm : m.lookup t = none)
    (hq : quotedChar t = some code) : resolveToken l m t = some code := by
  simp only [resolveToken, hl, hm, hq]

theorem resolveToken_of_not_quotedChar (hl : l.lookup t = none) (hm : m.lookup t = none) (hq : quotedChar t = none) :
    resolveToken l m t = decimal t := by
  simp only [resolveToken, hl, hm, hq]

theorem toNat_eq_apostrophe_iff (x : Char) : x.toNat = 39 ↔ x = '\'' :=
  Char.toNat_inj (d := '\'')

/-- R80: a quoted character of one UTF-16 code unit is its code. -/
theorem quotedChar_of_lt {x : Char} (hx : x.toNat < 65536) : quotedChar ['\'', x, '\''] = some x.toNat := by
  simp [quotedChar, charCode, hx]

/-- R80: nothing but three characters with apostrophes around is a quoted character. -/
theorem quotedChar_eq_none (ht : ∀ x : Char, t ≠ ['\'', x, '\'']) : quotedChar t = none := by
  unfold quotedChar
  split
  · rename_i q x r
    rw [if_neg]
    rw [Bool.and_eq_true, decide_eq_true_eq, decide_eq_true_eq, toNat_eq_apostrophe_iff, toNat_eq_apostrophe_iff]
    rintro ⟨rfl, rfl⟩
    exact ht x rfl
  · rfl

/-- R81: the tokens that are a decimal integer. -/
theorem isDecimal_iff : (!t.isEmpty && t.all isDecimalDigit) = true ↔ t ≠ [] ∧ ∀ x ∈ t, 48 ≤ x.toNat ∧ x.toNat ≤ 57 := by
  simp [isDecimalDigit]

/-- R80, R81: an apostrophe is no digit. -/
theorem quotedChar_of_digits (hd : ∀ x ∈ t, 48 ≤ x.toNat ∧ x.toNat ≤ 57) : quotedChar t = none := by
  refine quotedChar_eq_none ?_
  rintro x rfl
  exact absurd (hd '\'' (by simp)).1 (by decide)

/-- R81: the value of a run of digits, read from the left, is that of the digits in base 10. -/
theorem decimal_of_digits (ht : t ≠ []) (hd : ∀ x ∈ t, 48 ≤ x.toNat ∧ x.toNat ≤ 57) :
    decimal t = some (Nat.ofDigits 10 (t.reverse.map fun x => x.toNat - 48)) := by
  have hvalue : t.foldl (fun n x => 10 * n + (x.toNat - 48)) 0 = Nat.ofDigits 10 (t.reverse.map fun x => x.toNat - 48) := by
    rw [Nat.ofDigits_eq_foldr, List.foldr_map, List.foldr_reverse]
    simp [Nat.add_comm]
  rw [decimal, if_pos (isDecimal_iff.mpr ⟨ht, hd⟩), hvalue]

theorem decimal_eq_none (hd : ¬ (t ≠ [] ∧ ∀ x ∈ t, 48 ≤ x.toNat ∧ x.toNat ≤ 57)) : decimal t = none :=
  if_neg (isDecimal_iff.not.mpr hd)

/-! ### What the operand tokens resolve to, in order -/

theorem resolveFrom_cons_of_some {t : Token} {v : Nat} (ht : resolveToken l m t.text = some v) (p : Nat) (ts : List Token) :
    resolveFrom l m p (t :: ts) = (resolveFrom l m (p + 1) ts).map (v :: ·) := by
  simp only [resolveFrom, ht]
  cases resolveFrom l m (p + 1) ts <;> rfl

theorem resolveFrom_cons_of_none {t : Token} (ht : resolveToken l m t.text = none) (p : Nat) (ts : List Token) :
    resolveFrom l m p (t :: ts) = .error (t.text, p) := by
  simp only [resolveFrom, ht]

/-- R83: the values are what the tokens resolve to, one each, in order. -/
theorem resolveFrom_eq_ok {p : Nat} {ts : List Token} {vs : List Nat} (h : resolveFrom l m p ts = .ok vs) :
    vs.map some = ts.map fun t => resolveToken l m t.text := by
  induction ts generalizing p vs with
  | nil => cases h; rfl
  | cons t ts ih =>
    cases ht : resolveToken l m t.text with
    | none =>
      rw [resolveFrom_cons_of_none ht] at h
      cases h
    | some v =>
      rw [resolveFrom_cons_of_some ht] at h
      cases hr : resolveFrom l m (p + 1) ts with
      | error x =>
        rw [hr] at h
        cases h
      | ok ws =>
        rw [hr] at h
        cases h
        rw [List.map_cons, List.map_cons, ht, ih hr]

/-- R82: the token at index `j` is the first that resolves to nothing. -/
def FirstUnresolvable (l m : List (Text × Nat)) (ts : List Token) (token : Text) (j : Nat) : Prop :=
  (∃ t : Token, ts[j]? = some t ∧ t.text = token ∧ resolveToken l m token = none)
    ∧ ∀ (q : Nat) (t : Token), q < j → ts[q]? = some t → resolveToken l m t.text ≠ none

theorem not_firstUnresolvable_nil (token : Text) (j : Nat) : ¬ FirstUnresolvable l m [] token j := by
  rintro ⟨⟨t, ht, -⟩, -⟩
  simp at ht

/-- A token that resolves to nothing is itself the first such. -/
theorem firstUnresolvable_cons_of_none {t : Token} (ht : resolveToken l m t.text = none) (ts : List Token) (token : Text)
    (j : Nat) : FirstUnresolvable l m (t :: ts) token j ↔ t.text = token ∧ j = 0 := by
  constructor
  · rintro ⟨⟨u, hu, htok, -⟩, hbefore⟩
    cases j with
    | zero => cases hu; exact ⟨htok, rfl⟩
    | succ j => exact absurd ht (hbefore 0 t j.succ_pos rfl)
  · rintro ⟨rfl, rfl⟩
    exact ⟨⟨t, rfl, rfl, ht⟩, fun q _ hq => absurd hq q.not_lt_zero⟩

/-- Past a token that resolves, the first that does not is looked for among the rest. -/
theorem firstUnresolvable_cons_of_some {t : Token} {v : Nat} (ht : resolveToken l m t.text = some v) (ts : List Token)
    (token : Text) (j : Nat) :
    FirstUnresolvable l m (t :: ts) token j ↔ ∃ k : Nat, j = k + 1 ∧ FirstUnresolvable l m ts token k := by
  constructor
  · rintro ⟨⟨u, hu, htok, hnone⟩, hbefore⟩
    cases j with
    | zero =>
      cases hu
      rw [htok, hnone] at ht
      cases ht
    | succ k => exact ⟨k, rfl, ⟨u, hu, htok, hnone⟩, fun q w hq hw => hbefore (q + 1) w (Nat.succ_lt_succ hq) hw⟩
  · rintro ⟨k, rfl, hfails, hbefore⟩
    refine ⟨hfails, fun q w hq hw => ?_⟩
    cases q with
    | zero =>
      cases hw
      simp [ht]
    | succ q => exact hbefore q w (Nat.lt_of_succ_lt_succ hq) hw

/-- R82: the resolution from position `p` on fails exactly at the first token that resolves to nothing. -/
theorem resolveFrom_eq_error_iff {p q : Nat} {ts : List Token} {token : Text} :
    resolveFrom l m p ts = .error (token, q) ↔ ∃ j : Nat, q = p + j ∧ FirstUnresolvable l m ts token j := by
  induction ts generalizing p with
  | nil => simp [resolveFrom, not_firstUnresolvable_nil]
  | cons t ts ih =>
    cases ht : resolveToken l m t.text with
    | none =>
      simp only [resolveFrom_cons_of_none ht, firstUnresolvable_cons_of_none ht, Except.error.injEq, Prod.mk.injEq]
      constructor
      · rintro ⟨htok, rfl⟩
        exact ⟨0, rfl, htok, rfl⟩
      · rintro ⟨j, rfl, htok, rfl⟩
        exact ⟨htok, rfl⟩
    | some v =>
      have hrest : resolveFrom l m p (t :: ts) = .error (token, q) ↔ resolveFrom l m (p + 1) ts = .error (token, q) := by
        rw [resolveFrom_cons_of_some ht]
        cases resolveFrom l m (p + 1) ts <;> simp [Except.map]
      simp only [hrest, ih, firstUnresolvable_cons_of_some ht]
      constructor
      · rintro ⟨k, rfl, hk⟩
        exact ⟨k + 1, by omega, k, rfl, hk⟩
      · rintro ⟨j, rfl, k, rfl, hk⟩
        exact ⟨k, by omega, hk⟩

/-! ### Labels -/

/-- R76: the labels of a list of tokens, `p` operand tokens before it, are its label definitions, each with the count of operand
tokens before it. -/
theorem mem_labelsFrom_iff {p a : Nat} {ts : List Token} {name : Text} :
    (name, a) ∈ labelsFrom p ts ↔
      ∃ (before after : List Token) (d : Token), ts = before ++ d :: after
        ∧ isLabelDefinition d.text = true ∧ labelName d.text = name
        ∧ a = p + (before.filter fun t => !isLabelDefinition t.text).length := by
  induction ts generalizing p with
  | nil => simp [labelsFrom]
  | cons t ts ih =>
    cases ht : isLabelDefinition t.text with
    | true =>
      rw [labelsFrom, if_pos ht, List.mem_cons, ih]
      constructor
      · rintro (he | ⟨before, after, d, rfl, hd, hname, ha⟩)
        · cases he
          exact ⟨[], ts, t, rfl, ht, rfl, rfl⟩
        · exact ⟨t :: before, after, d, rfl, hd, hname, by simpa [ht] using ha⟩
      · rintro ⟨before, after, d, hts, hd, hname, ha⟩
        cases before with
        | nil =>
          cases hts
          exact .inl (by rw [← hname, ha]; rfl)
        | cons u before =>
          cases hts
          exact .inr ⟨before, after, d, rfl, hd, hname, by simpa [ht] using ha⟩
    | false =>
      rw [labelsFrom, if_neg (by simp [ht]), ih]
      constructor
      · rintro ⟨before, after, d, rfl, hd, hname, ha⟩
        refine ⟨t :: before, after, d, rfl, hd, hname, ?_⟩
        simp only [List.filter_cons, ht, Bool.not_false, if_true, List.length_cons]
        omega
      · rintro ⟨before, after, d, hts, hd, hname, ha⟩
        cases before with
        | nil =>
          cases hts
          rw [ht] at hd
          cases hd
        | cons u before =>
          cases hts
          simp only [List.filter_cons, ht, Bool.not_false, if_true, List.length_cons] at ha
          exact ⟨before, after, d, rfl, hd, hname, by omega⟩

/-! ### What a source gives -/

section Assemble

variable {b : Bases}

theorem assemble_of_duplicate (hl : ¬ ((labels source).map Prod.fst).Nodup) : assemble b m source = .refusedDuplicateLabel :=
  if_neg (by simpa using hl)

theorem assemble_of_resolved {vs : List Nat} (hl : ((labels source).map Prod.fst).Nodup)
    (hr : resolveFrom (labels source) m 0 (operandTokens source) = .ok vs) :
    assemble b m source = .ok vs (sourceMap b source) := by
  rw [assemble, if_pos (decide_eq_true hl), hr]

theorem assemble_of_unresolvable {token : Text} {p : Nat} (hl : ((labels source).map Prod.fst).Nodup)
    (hr : resolveFrom (labels source) m 0 (operandTokens source) = .error (token, p)) :
    assemble b m source = .error token p := by
  rw [assemble, if_pos (decide_eq_true hl), hr]

/-- R71, R82, R84: everything that assembling a source can give, and when. -/
theorem assemble_cases (b : Bases) (m : List (Text × Nat)) (source : Text) :
    (¬ ((labels source).map Prod.fst).Nodup ∧ assemble b m source = .refusedDuplicateLabel)
    ∨ (((labels source).map Prod.fst).Nodup ∧
      ((∃ vs : List Nat, resolveFrom (labels source) m 0 (operandTokens source) = .ok vs
          ∧ assemble b m source = .ok vs (sourceMap b source))
        ∨ ∃ (token : Text) (p : Nat), resolveFrom (labels source) m 0 (operandTokens source) = .error (token, p)
          ∧ assemble b m source = .error token p)) := by
  by_cases hl : ((labels source).map Prod.fst).Nodup
  · cases hr : resolveFrom (labels source) m 0 (operandTokens source) with
    | ok vs => exact .inr ⟨hl, .inl ⟨vs, rfl, assemble_of_resolved hl hr⟩⟩
    | error x => exact .inr ⟨hl, .inr ⟨x.1, x.2, rfl, assemble_of_unresolvable hl hr⟩⟩
  · exact .inl ⟨hl, assemble_of_duplicate hl⟩

theorem assemble_eq_refused_iff : assemble b m source = .refusedDuplicateLabel ↔ ¬ ((labels source).map Prod.fst).Nodup := by
  refine ⟨fun h => ?_, assemble_of_duplicate⟩
  rcases assemble_cases b m source with ⟨hl, -⟩ | ⟨-, ⟨vs, -, ha⟩ | ⟨token, p, -, ha⟩⟩
  · exact hl
  · cases ha.symm.trans h
  · cases ha.symm.trans h

theorem assemble_eq_ok {vs : List Nat} {map : List (Nat × Nat × Nat)} (h : assemble b m source = .ok vs map) :
    resolveFrom (labels source) m 0 (operandTokens source) = .ok vs ∧ map = sourceMap b source := by
  rcases assemble_cases b m source with ⟨-, ha⟩ | ⟨-, ⟨ws, hr, ha⟩ | ⟨token, p, -, ha⟩⟩
  · cases ha.symm.trans h
  · cases ha.symm.trans h
    exact ⟨hr, rfl⟩
  · cases ha.symm.trans h

theorem assemble_eq_error_iff {token : Text} {p : Nat} :
    assemble b m source = .error token p ↔
      ((labels source).map Prod.fst).Nodup ∧ FirstUnresolvable (labels source) m (operandTokens source) token p := by
  have hfirst : resolveFrom (labels source) m 0 (operandTokens source) = .error (token, p)
      ↔ FirstUnresolvable (labels source) m (operandTokens source) token p := by
    simp [resolveFrom_eq_error_iff]
  rw [← hfirst]
  refine ⟨fun h => ?_, fun ⟨hl, hr⟩ => assemble_of_unresolvable hl hr⟩
  rcases assemble_cases b m source with ⟨-, ha⟩ | ⟨hl, ⟨vs, -, ha⟩ | ⟨token', p', hr, ha⟩⟩
  · cases ha.symm.trans h
  · cases ha.symm.trans h
  · cases ha.symm.trans h
    exact ⟨hl, hr⟩

end Assemble

/-! ### The tokens of the source's examples -/

theorem operandTokens_ldr0_example : operandTokens "LDR0 5".toList = [⟨0, 0, "LDR0".toList⟩, ⟨0, 5, "5".toList⟩] := rfl

theorem labels_ldr0_example : labels "LDR0 5".toList = [] := rfl

theorem operandTokens_loop_example : operandTokens "JMP LOOP\nLOOP: HALT".toList
    = [⟨0, 0, "JMP".toList⟩, ⟨0, 4, "LOOP".toList⟩, ⟨1, 6, "HALT".toList⟩] := rfl

theorem labels_loop_example : labels "JMP LOOP\nLOOP: HALT".toList = [("LOOP".toList, 2)] := rfl

theorem operandTokens_foo_example : operandTokens "FOO".toList = [⟨0, 0, "FOO".toList⟩] := rfl

theorem labels_foo_example : labels "FOO".toList = [] := rfl

end Resolution

/-! ### The statements about what a source gives -/

/-- Settles O50: the values in order, then what one token resolves to, by the four places it is looked for. -/
theorem assemblerEmitsOneValuePerOperandToken : Obligations.AssemblerEmitsOneValuePerOperandToken := by
  unfold Obligations.AssemblerEmitsOneValuePerOperandToken
  refine ⟨fun b m source values map h => ?values, fun l m t => ⟨?label, ?mnemonic, ?quoted, ?decimal, ?nothing⟩⟩
  case values =>
    obtain ⟨hr, rfl⟩ := assemble_eq_ok h
    have hvs := resolveFrom_eq_ok hr
    refine ⟨by simpa using congrArg List.length hvs, fun i => ?_, rfl⟩
    have hi : (values[i]?).map some = ((operandTokens source)[i]?).map fun t => resolveToken (labels source) m t.text := by
      simpa using congrArg (·[i]?) hvs
    cases ht : (operandTokens source)[i]? with
    | none => simpa [ht] using hi
    | some t =>
      rw [ht] at hi
      obtain ⟨v, hv, hr⟩ := Option.map_eq_some_iff.mp hi
      rw [hv]
      exact hr
  case label => exact fun _ hl => resolveToken_of_label hl
  case mnemonic => exact fun _ hl hm => resolveToken_of_mnemonic hl hm
  case quoted =>
    rintro x hl hm rfl hx
    exact resolveToken_of_quotedChar hl hm (quotedChar_of_lt hx)
  case decimal =>
    intro hl hm ht hd
    rw [resolveToken_of_not_quotedChar hl hm (quotedChar_of_digits hd), decimal_of_digits ht hd]
  case nothing =>
    intro hl hm hq hd
    rw [resolveToken_of_not_quotedChar hl hm (quotedChar_eq_none hq), decimal_eq_none hd]

/-- Settles O51: past duplicate labels, the resolution of the operand tokens fails at the first that resolves to nothing. -/
theorem assemblerReportsTheFirstUnresolvableToken : Obligations.AssemblerReportsTheFirstUnresolvableToken := by
  unfold Obligations.AssemblerReportsTheFirstUnresolvableToken
  exact fun _ _ _ _ _ => assemble_eq_error_iff

/-- Settles O52, from the count that the scan for labels carries along. -/
theorem labelAddressCountsOperandTokensBefore : Obligations.LabelAddressCountsOperandTokensBefore := by
  unfold Obligations.LabelAddressCountsOperandTokensBefore
  intro source name p
  rw [labels, mem_labelsFrom_iff]
  simp only [Nat.zero_add]

/-- Settles O49: each example's tokens and labels, then its tokens one by one. -/
theorem assemblerReproducesTheSourceExamples : Obligations.AssemblerReproducesTheSourceExamples := by
  unfold Obligations.AssemblerReproducesTheSourceExamples
  intro b m
  refine ⟨fun hmnemonic hdigit => ?ldr0, fun hjmp hhalt => ?loop, fun hfoo => ?foo⟩
  case ldr0 =>
    have hfive : resolveToken [] m "5".toList = some 5 := resolveToken_of_not_quotedChar rfl hdigit rfl
    refine assemble_of_resolved (by rw [labels_ldr0_example]; exact List.nodup_nil) ?_
    rw [labels_ldr0_example, operandTokens_ldr0_example, resolveFrom_cons_of_some (resolveToken_of_mnemonic rfl hmnemonic),
      resolveFrom_cons_of_some hfive]
    rfl
  case loop =>
    refine assemble_of_resolved (by rw [labels_loop_example]; exact List.nodup_singleton _) ?_
    rw [labels_loop_example, operandTokens_loop_example, resolveFrom_cons_of_some (resolveToken_of_mnemonic rfl hjmp),
      resolveFrom_cons_of_some (resolveToken_of_label rfl), resolveFrom_cons_of_some (resolveToken_of_mnemonic rfl hhalt)]
    rfl
  case foo =>
    refine assemble_of_unresolvable (by rw [labels_foo_example]; exact List.nodup_nil) ?_
    rw [labels_foo_example, operandTokens_foo_example]
    exact resolveFrom_cons_of_none (resolveToken_of_not_quotedChar rfl hfoo rfl) 0 []

/-- Settles O53: the test for distinct names comes before all else that assembling does. -/
theorem duplicateLabelsAreRefused : Obligations.DuplicateLabelsAreRefused := by
  unfold Obligations.DuplicateLabelsAreRefused
  exact fun _ _ _ => assemble_eq_refused_iff

end Sys2Proof.Machine

/-! PROOF. The family of spec/40_arithmetic_constraints.md: what the constraint functions answer (R100 to R102), their laws
(R104), what IP stores (R107), and that the memory operations see their arguments only through them. The register mask is the
address wrap at `2^w`, so each law is proved once, for the wrap. -/

namespace Sys2Proof.Machine

section Support

/-! ### The address wrap -/

section AddressWrap

variable {n : Nat} (hn : 1 ≤ n)
include hn

/-- R102: the wrap stays in its argument's residue class. -/
theorem constrainAddress_modEq (v : Int) : (constrainAddress n v : Int) ≡ v [ZMOD n] := by
  rw [constrainAddress_cast hn]
  exact Int.mod_modEq v n

/-- R104 (b). -/
theorem constrainAddress_add_mul_self (v k : Int) : constrainAddress n (v + k * n) = constrainAddress n v :=
  (constrainAddress_eq_iff hn _ _).mpr (Int.add_mul_emod_self_right v k n)

/-- R104 (c). -/
theorem constrainAddress_idem (v : Int) : constrainAddress n (constrainAddress n v) = constrainAddress n v :=
  (constrainAddress_eq_iff hn _ _).mpr (constrainAddress_modEq hn v)

/-- R104 (d). -/
theorem constrainAddress_cast_of_inRange {v : Int} (h0 : 0 ≤ v) (hv : v < n) : (constrainAddress n v : Int) = v := by
  rw [constrainAddress_cast hn, Int.emod_eq_of_lt h0 hv]

/-- R104 (e), for the sum. -/
theorem constrainAddress_add (a b : Int) :
    constrainAddress n (a + b) = constrainAddress n (constrainAddress n a + constrainAddress n b) :=
  (constrainAddress_eq_iff hn _ _).mpr ((constrainAddress_modEq hn a).add (constrainAddress_modEq hn b)).symm

/-- R104 (e), for the difference. -/
theorem constrainAddress_sub (a b : Int) :
    constrainAddress n (a - b) = constrainAddress n (constrainAddress n a - constrainAddress n b) :=
  (constrainAddress_eq_iff hn _ _).mpr ((constrainAddress_modEq hn a).sub (constrainAddress_modEq hn b)).symm

/-- R104 (e), for the product. -/
theorem constrainAddress_mul (a b : Int) :
    constrainAddress n (a * b) = constrainAddress n (constrainAddress n a * constrainAddress n b) :=
  (constrainAddress_eq_iff hn _ _).mpr ((constrainAddress_modEq hn a).mul (constrainAddress_modEq hn b)).symm

/-- R102: the source's formula, its remainder truncating toward zero. The inner remainder exceeds `-n`, so the outer one is taken
of a positive number, where the two conventions agree. -/
theorem constrainAddress_eq_tmod (v : Int) : (constrainAddress n v : Int) = (v.tmod n + n).tmod n := by
  have hpos : 0 ≤ v.tmod n + n := by
    have := Int.lt_tmod_of_pos v (show (0 : Int) < n by omega)
    omega
  have hmod : v.tmod n ≡ v [ZMOD n] := by
    rw [Int.tmod_def]
    exact Int.modEq_iff_dvd.mpr ⟨v.tdiv n, by ring⟩
  rw [Int.tmod_eq_emod_of_nonneg hpos, Int.add_emod_right, constrainAddress_cast hn]
  exact hmod.symm

/-- R102: the source's formula, its remainder non-negative. -/
theorem constrainAddress_eq_emod (v : Int) : (constrainAddress n v : Int) = (v % n + n) % n := by
  rw [Int.add_emod_right, Int.emod_emod, constrainAddress_cast hn]

theorem constrainAddress_neg_one : constrainAddress n (-1) = n - 1 := by
  have hlast : constrainAddress n (-1) = constrainAddress n ((n - 1 : Nat) : Int) := by
    rw [← constrainAddress_add_mul_self hn (-1) 1]
    congr 1
    omega
  rw [hlast, constrainAddress_natCast, Nat.mod_eq_of_lt (by omega)]

end AddressWrap

theorem constrainAddress_self (n : Nat) : constrainAddress n n = 0 := by
  rw [constrainAddress_natCast, Nat.mod_self]

theorem constrainAddress_neg_self (n : Nat) : constrainAddress n (-n) = 0 := by
  simp [constrainAddress]

theorem constrainAddress_one (v : Int) : constrainAddress 1 v = 0 :=
  Nat.lt_one_iff.mp (constrainAddress_lt le_rfl v)

/-! ### The masks -/

/-- R100, R102: the mask to `w` bits is the wrap at `2^w`. -/
theorem constrainRegisterValue_eq_constrainAddress (w : Nat) (v : Int) :
    constrainRegisterValue w v = constrainAddress (2 ^ w) v := by
  unfold constrainRegisterValue constrainAddress
  rw [Nat.cast_pow, Nat.cast_ofNat]

/-- R101: one function under two names. -/
theorem constrainMemoryValue_eq_constrainRegisterValue (w : Nat) (v : Int) :
    constrainMemoryValue w v = constrainRegisterValue w v := rfl

/-- R100, D1: the low `w` bits of the two's-complement reading. -/
theorem constrainRegisterValue_eq_ofInt_toNat (w : Nat) (v : Int) :
    constrainRegisterValue w v = (BitVec.ofInt w v).toNat := by
  rw [BitVec.toNat_ofInt, constrainRegisterValue_eq_constrainAddress, constrainAddress]

theorem constrainRegisterValue_add_mul_pow (w : Nat) (v k : Int) :
    constrainRegisterValue w (v + k * 2 ^ w) = constrainRegisterValue w v := by
  simp only [constrainRegisterValue_eq_constrainAddress]
  exact_mod_cast constrainAddress_add_mul_self Nat.one_le_two_pow v k

theorem constrainRegisterValue_idem (w : Nat) (v : Int) :
    constrainRegisterValue w (constrainRegisterValue w v) = constrainRegisterValue w v := by
  simp only [constrainRegisterValue_eq_constrainAddress]
  exact constrainAddress_idem Nat.one_le_two_pow v

theorem constrainRegisterValue_cast_of_inRange {w : Nat} {v : Int} (h0 : 0 ≤ v) (hv : v < 2 ^ w) :
    (constrainRegisterValue w v : Int) = v := by
  rw [constrainRegisterValue_eq_constrainAddress]
  exact constrainAddress_cast_of_inRange Nat.one_le_two_pow h0 (by exact_mod_cast hv)

theorem constrainRegisterValue_zero (w : Nat) : constrainRegisterValue w 0 = 0 := by
  simp [constrainRegisterValue]

theorem constrainRegisterValue_two_pow_sub_one (w : Nat) : constrainRegisterValue w (2 ^ w - 1) = 2 ^ w - 1 := by
  have hpos := two_pow_pos_int w
  have hone : 1 ≤ 2 ^ w := Nat.one_le_two_pow
  zify [hone]
  exact constrainRegisterValue_cast_of_inRange (by omega) (by omega)

theorem constrainRegisterValue_two_pow (w : Nat) : constrainRegisterValue w (2 ^ w) = 0 := by
  rw [constrainRegisterValue_eq_constrainAddress]
  exact_mod_cast constrainAddress_self (2 ^ w)

theorem constrainRegisterValue_neg_one (w : Nat) : constrainRegisterValue w (-1) = 2 ^ w - 1 := by
  rw [constrainRegisterValue_eq_constrainAddress, constrainAddress_neg_one Nat.one_le_two_pow]

/-! ### What IP stores -/

/-- R107, D4: the mask first, the wrap second. -/
theorem wrapIP_cast {c : Config} (hn : 1 ≤ c.numMemoryAddresses) (v : Int) :
    (wrapIP c v : Int) = v % 2 ^ c.registerBitWidth % (c.numMemoryAddresses : Int) := by
  rw [wrapIP, constrainAddress_cast hn, constrainRegisterValue_cast]

/-- R107: at `2^REGW` the mask has already made IP 0, whatever N is. -/
theorem wrapIP_two_pow (c : Config) : wrapIP c (2 ^ c.registerBitWidth) = 0 := by
  rw [wrapIP, constrainRegisterValue_two_pow, constrainAddress_natCast, Nat.zero_mod]

/-! ### The memory operations -/

/-- R113: `setMemory` sees its address only modulo N and its value only through the mask. -/
theorem setMemory_eq_of_modEq {P : Type} {c : Config} (hn : 1 ≤ c.numMemoryAddresses) {a b v u : Int}
    (hab : a ≡ b [ZMOD c.numMemoryAddresses])
    (hvu : constrainMemoryValue c.memoryBitWidth v = constrainMemoryValue c.memoryBitWidth u) (s : State P) :
    setMemory c a v s = setMemory c b u s := by
  unfold setMemory
  rw [(constrainAddress_eq_iff hn a b).mpr hab, hvu]

end Support

/-! ### The statements -/

/-- Settles O1: the mask as a remainder, its corners from the wrap at `2^w`. -/
theorem registerMaskIsTheRemainder : Obligations.RegisterMaskIsTheRemainder := by
  unfold Obligations.RegisterMaskIsTheRemainder
  intro w v _
  exact ⟨constrainRegisterValue_cast w v, constrainRegisterValue_lt w v, constrainRegisterValue_eq_ofInt_toNat w v,
    constrainRegisterValue_zero w, constrainRegisterValue_two_pow_sub_one w,
    constrainRegisterValue_two_pow w, constrainRegisterValue_neg_one w, constrainMemoryValue_eq_constrainRegisterValue w v⟩

/-- Settles O2: both readings of the source's formula, then the corners. -/
theorem addressWrapIsTheRemainder : Obligations.AddressWrapIsTheRemainder := by
  unfold Obligations.AddressWrapIsTheRemainder
  intro n v hn
  exact ⟨constrainAddress_cast hn v, constrainAddress_lt hn v, constrainAddress_eq_tmod hn v, constrainAddress_eq_emod hn v,
    constrainAddress_self n, constrainAddress_neg_one hn, constrainAddress_neg_self n, constrainAddress_one v⟩

/-- Settles O3: the wrap's laws, and the masks' as those of the wrap at `2^w`. -/
theorem constraintFunctionsObeyTheirLaws : Obligations.ConstraintFunctionsObeyTheirLaws := by
  unfold Obligations.ConstraintFunctionsObeyTheirLaws
  refine ⟨?masks, ?wrap, ?homomorphism⟩
  case masks =>
    intro w v k _
    simp only [constrainMemoryValue_eq_constrainRegisterValue]
    have hlt := constrainRegisterValue_lt w v
    have hperiod := constrainRegisterValue_add_mul_pow w v k
    have hidem := constrainRegisterValue_idem w v
    refine ⟨hlt, hlt, hperiod, hperiod, hidem, hidem, ?_⟩
    rintro ⟨h0, hv⟩
    have hsame := constrainRegisterValue_cast_of_inRange h0 hv
    exact ⟨hsame, hsame⟩
  case wrap =>
    intro n v k hn
    exact ⟨constrainAddress_lt hn v, constrainAddress_add_mul_self hn v k, constrainAddress_idem hn v,
      fun ⟨h0, hv⟩ => constrainAddress_cast_of_inRange hn h0 hv⟩
  case homomorphism =>
    intro w a b _
    have hpow : 1 ≤ 2 ^ w := Nat.one_le_two_pow
    simp only [constrainRegisterValue_eq_constrainAddress]
    exact ⟨constrainAddress_add hpow a b, constrainAddress_sub hpow a b, constrainAddress_mul hpow a b⟩

/-- Settles O4. Where N divides `2^REGW` the mask loses nothing that the wrap keeps; conversely a uniform wrap answers
`2^REGW mod N` at `v = 2^REGW`, where the mask makes IP 0. -/
theorem ipWrapIsUniformExactlyWhenNDivides : Obligations.IpWrapIsUniformExactlyWhenNDivides := by
  unfold Obligations.IpWrapIsUniformExactlyWhenNDivides
  intro c hc
  obtain ⟨-, -, hn, -⟩ := Config.wellFormed_facts hc
  refine ⟨wrapIP_cast hn, ?uniform_dvd, ?dvd_uniform⟩
  case uniform_dvd =>
    intro huniform
    have hzero : (2 : Int) ^ c.registerBitWidth % (c.numMemoryAddresses : Int) = 0 := by
      rw [← huniform, wrapIP_two_pow, Nat.cast_zero]
    exact_mod_cast Int.dvd_of_emod_eq_zero hzero
  case dvd_uniform =>
    intro hd v
    rw [wrapIP_cast hn]
    exact Int.emod_emod_of_dvd v (by exact_mod_cast hd)

/-- Settles O7: an address is seen modulo N, a value modulo `2^MEMW`. -/
theorem memoryOperationsArePeriodic : Obligations.MemoryOperationsArePeriodic := by
  unfold Obligations.MemoryOperationsArePeriodic
  intro P c s a v k j hc
  obtain ⟨-, -, hn, -⟩ := Config.wellFormed_facts hc
  have haddress : a + k * c.numMemoryAddresses ≡ a [ZMOD c.numMemoryAddresses] := Int.add_mul_emod_self_right a k _
  exact ⟨getMemory_eq_of_modEq hn haddress s,
    setMemory_eq_of_modEq hn haddress (constrainRegisterValue_add_mul_pow c.memoryBitWidth v j) s⟩

end Sys2Proof.Machine

/-! PROOF. The family of spec/41_state_operations.md: what a write to a register and to a cell stores and leaves as it was (R111
to R113), when `getArgument` has no value (R116), how the phases are counted (R117, R210), and the frame of a peripheral
operation (R119). -/

namespace Sys2Proof.Machine

section Support

variable {P : Type} {c : Config} {e : Engine P} {s t : State P}

/-! ### Register writes -/

/-- R111: a register of the state reads back what the write stores. -/
theorem getRegister_setRegister_same (r : Register c) (v : Int) (hr : r.val < s.registers.length) :
    getRegister c r (setRegister c r v s) = storedInRegister c r v := by
  rw [getRegister_setRegister c r v s r hr, if_pos rfl]

/-- R111, R100: what a register other than IP stores. -/
theorem storedInRegister_cast_of_ne_ip {r : Register c} (hr : r ≠ c.ip) (v : Int) :
    (storedInRegister c r v : Int) = v % 2 ^ c.registerBitWidth := by
  rw [storedInRegister, if_neg hr, constrainRegisterValue_cast]

/-- R111, R107: what IP stores. -/
theorem storedInRegister_ip_cast (hn : 1 ≤ c.numMemoryAddresses) (v : Int) :
    (storedInRegister c c.ip v : Int) = v % 2 ^ c.registerBitWidth % (c.numMemoryAddresses : Int) := by
  rw [storedInRegister, if_pos rfl, wrapIP_cast hn]

/-- R111: a register write reaches no cell. -/
theorem SameMemory.setRegister (c : Config) (r : Register c) (v : Int) (s : State P) :
    SameMemory c s (setRegister c r v s) :=
  getMemory_setRegister c c r v s

/-- R111: a register write leaves the counters and the peripherals. -/
theorem SamePosition.setRegister (c : Config) (r : Register c) (v : Int) (s : State P) :
    SamePosition s (setRegister c r v s) :=
  ⟨setRegister_periph c r v s, setRegister_pipelineStep c r v s, setRegister_executionStep c r v s⟩

/-! ### Memory writes -/

/-- R112, R113: a cell read after a write, by the remainders of the two addresses. -/
theorem getMemory_setMemory_cast (hn : 1 ≤ c.numMemoryAddresses) (a b v : Int) (s : State P) :
    (getMemory c a (setMemory c b v s) : Int) =
      if a % (c.numMemoryAddresses : Int) = b % (c.numMemoryAddresses : Int) then v % 2 ^ c.memoryBitWidth
      else (getMemory c a s : Int) := by
  rw [getMemory_setMemory, Nat.cast_ite, constrainMemoryValue_cast]
  simp only [constrainAddress_eq_iff hn]

/-- R113: a memory write leaves the counters and the peripherals. -/
theorem SamePosition.setMemory (c : Config) (a v : Int) (s : State P) : SamePosition s (setMemory c a v s) :=
  ⟨setMemory_periph c a v s, setMemory_pipelineStep c a v s, setMemory_executionStep c a v s⟩

/-! ### `getArgument` where nothing resolves -/

/-- R116, D12. -/
theorem getArgument_of_lookup_eq_none (hl : lookup c (getRegister c c.is s) = none) (n : Int) : getArgument c n s = none := by
  simp only [getArgument, hl]

/-- R200: on a well-formed engine a transaction is answered. -/
theorem transact_of_wellFormed [Decidable e.WellFormed] (hw : e.WellFormed) (tr : Transaction) (s : State P) :
    transact e tr s = answer e tr s :=
  if_pos hw

/-- R116: the host's request is refused by name. -/
theorem answer_getArgument_of_lookup_eq_none [Decidable e.WellFormed]
    (hl : lookup e.config (getRegister e.config e.config.is s) = none) (n : Int) :
    answer e (.getArgument n) s = .refused .argumentUnresolved := by
  simp only [answer, getArgument_of_lookup_eq_none hl]

/-! ### Counting phases -/

/-- R117: all the phases that the two counters stand for, on a pipeline of `len` phases. -/
def phasesRun (len : Nat) (s : State P) : Nat :=
  len * s.executionStep + s.pipelineStep

/-- R117: from a legal index, advancing counts one phase, at the return to 0 too. -/
theorem phasesRun_advancePipeline {len : Nat} (hp : s.pipelineStep < len) :
    phasesRun len (advancePipeline len s) = phasesRun len s + 1 := by
  simp only [phasesRun, advancePipeline_pipelineStep, advancePipeline_executionStep]
  rcases Nat.lt_or_eq_of_le (Nat.succ_le_of_lt hp) with hlt | heq
  · have hmod : (s.pipelineStep + 1) % len = s.pipelineStep + 1 := Nat.mod_eq_of_lt hlt
    rw [hmod, if_neg (Nat.succ_ne_zero _)]
    rfl
  · have hmod : (s.pipelineStep + 1) % len = 0 := by rw [← heq, Nat.mod_self]
    rw [hmod, if_pos rfl, Nat.mul_succ]
    omega

/-- The count of phases gives the phase index back. -/
theorem phasesRun_mod {len : Nat} (hp : s.pipelineStep < len) : phasesRun len s % len = s.pipelineStep := by
  rw [phasesRun, Nat.mul_add_mod, Nat.mod_eq_of_lt hp]

/-- The count of phases gives the count of cycles back. -/
theorem phasesRun_div {len : Nat} (hp : s.pipelineStep < len) : phasesRun len s / len = s.executionStep := by
  rw [phasesRun, Nat.mul_add_div (Nat.zero_lt_of_lt hp), Nat.div_eq_of_lt hp, Nat.add_zero]

/-- R134, R120: a running step is a phase, which leaves both counters, and then `advancePipeline`. -/
theorem Engine.WellFormed.engineStep_eq_advancePipeline (hw : e.WellFormed) (hi : Inv e s) (hr : s.isHalted = false)
    (h : engineStep e s = .next t) :
    ∃ u : State P, t = advancePipeline e.length u ∧ u.pipelineStep = s.pipelineStep ∧ u.executionStep = s.executionStep := by
  rcases engineStep_cases h with ⟨hh, -⟩ | ⟨-, p, u, hp, hu, ht⟩
  · exact absurd (hr.symm.trans hh) Bool.false_ne_true
  · obtain ⟨u', hu', hwr⟩ := hw.runPhase_next hi (List.mem_of_getElem? hp)
    cases hu'.symm.trans hu
    obtain ⟨-, hpipeline, hexecution, -⟩ := AccessorWrites.spec hw.config hwr
    exact ⟨u, ht, hpipeline, hexecution⟩

/-- R117, R134: a running step counts one phase. -/
theorem phasesRun_engineStep (hw : e.WellFormed) (hi : Inv e s) (hr : s.isHalted = false) (h : engineStep e s = .next t) :
    phasesRun e.length t = phasesRun e.length s + 1 := by
  obtain ⟨u, rfl, hpipeline, hexecution⟩ := hw.engineStep_eq_advancePipeline hi hr h
  have hp : u.pipelineStep < e.length := hpipeline ▸ hi.pipelineStep
  rw [phasesRun_advancePipeline hp, phasesRun, phasesRun, hpipeline, hexecution]

/-- Many steps that answer, the first one taken off. -/
theorem engineSteps_succ_eq_next {k : Nat} (h : engineSteps e (k + 1) s = .next t) :
    ∃ u : State P, engineStep e s = .next u ∧ engineSteps e k u = .next t := by
  rw [engineSteps] at h
  cases hs : engineStep e s with
  | next u => exact ⟨u, rfl, by simpa only [hs] using h⟩
  | fault r => simp only [hs] at h; cases h
  | refused r => simp only [hs] at h; cases h

/-- The machine runs before each of `k` steps. -/
def RunningBefore (e : Engine P) (k : Nat) (s : State P) : Prop :=
  ∀ j : Nat, j < k → ∀ u : State P, engineSteps e j s = .next u → u.isHalted = false

theorem RunningBefore.isHalted {k : Nat} (hr : RunningBefore e (k + 1) s) : s.isHalted = false :=
  hr 0 (Nat.succ_pos k) s rfl

theorem RunningBefore.tail {k : Nat} (hr : RunningBefore e (k + 1) s) (h : engineStep e s = .next t) : RunningBefore e k t := by
  intro j hj u hu
  exact hr (j + 1) (Nat.succ_lt_succ hj) u (by rw [engineSteps, h]; exact hu)

/-- R210: `k` running steps count `k` phases, and the phase index is legal after them. -/
theorem phasesRun_engineSteps (hw : e.WellFormed) {k : Nat} (hi : Inv e s) (h : engineSteps e k s = .next t)
    (hr : RunningBefore e k s) : Inv e t ∧ phasesRun e.length t = phasesRun e.length s + k := by
  induction k generalizing s with
  | zero =>
    cases h
    exact ⟨hi, rfl⟩
  | succ k ih =>
    obtain ⟨u, hs, hu⟩ := engineSteps_succ_eq_next h
    obtain ⟨hit, hcount⟩ := ih (hi.engineStep hw hs) hu (hr.tail hs)
    refine ⟨hit, ?_⟩
    rw [hcount, phasesRun_engineStep hw hi hr.isHalted hs]
    omega

/-- R117: the two counters after a running step. -/
theorem engineStep_counters (hw : e.WellFormed) (hi : Inv e s) (hr : s.isHalted = false) (h : engineStep e s = .next t) :
    t.pipelineStep = (s.pipelineStep + 1) % e.length
    ∧ t.executionStep = if (s.pipelineStep + 1) % e.length = 0 then s.executionStep + 1 else s.executionStep := by
  obtain ⟨u, rfl, hpipeline, hexecution⟩ := hw.engineStep_eq_advancePipeline hi hr h
  rw [advancePipeline_pipelineStep, advancePipeline_executionStep, hpipeline, hexecution]
  exact ⟨rfl, rfl⟩

/-- R210: the two counters after `k` running steps, read off the count of phases. -/
theorem engineSteps_counters (hw : e.WellFormed) {k : Nat} (hi : Inv e s) (h : engineSteps e k s = .next t)
    (hr : RunningBefore e k s) :
    t.pipelineStep = (s.pipelineStep + k) % e.length
    ∧ t.executionStep = s.executionStep + (s.pipelineStep + k) / e.length := by
  obtain ⟨hit, hcount⟩ := phasesRun_engineSteps hw hi h hr
  have hsum : phasesRun e.length t = e.length * s.executionStep + (s.pipelineStep + k) := by
    rw [hcount, phasesRun, Nat.add_assoc]
  constructor
  · rw [← phasesRun_mod hit.pipelineStep, hsum, Nat.mul_add_mod]
  · rw [← phasesRun_div hit.pipelineStep, hsum, Nat.mul_add_div hw.pipeline]

end Support

/-! ### The statements -/

/-- Settles O48. Each running step counts one phase more (`phasesRun`), so `k` of them count `k`, and remainder and quotient by L
give the two counters back; a new state starts from 0. -/
theorem stepsCountThePipeline : Obligations.StepsCountThePipeline := by
  unfold Obligations.StepsCountThePipeline
  refine ⟨fun _ _ _ _ hw hi hr h => engineStep_counters hw hi hr h,
    fun _ _ _ _ _ hw hi h hr => engineSteps_counters hw hi h hr, ?from_new⟩
  case from_new =>
    intro P e _ k s t hnew h hr
    obtain ⟨hw, rfl⟩ := newState_next hnew
    simpa only [freshState, Nat.zero_add] using engineSteps_counters hw (inv_freshState hw) h hr

/-- Settles O5: what the register stores, then the frame. -/
theorem setRegisterStoresTheConstrainedValue : Obligations.SetRegisterStoresTheConstrainedValue := by
  unfold Obligations.SetRegisterStoresTheConstrainedValue
  intro P c s r v hc hlen
  obtain ⟨-, -, hn, -, -⟩ := Config.wellFormed_facts hc
  have hread := getRegister_setRegister_same r v (register_lt_length hlen r)
  refine ⟨?other, ?ip, .setRegister c r v s, .setRegister c r v s, setRegister_isHalted c r v s, .setRegister c r v s⟩
  case other =>
    intro hr
    rw [hread, storedInRegister_cast_of_ne_ip hr]
  case ip =>
    rintro rfl
    rw [hread, storedInRegister_ip_cast hn]

/-- Settles O6: two addresses are one cell exactly when they agree modulo N. -/
theorem readAfterWriteOfACell : Obligations.ReadAfterWriteOfACell := by
  unfold Obligations.ReadAfterWriteOfACell
  intro P c s a b v hc
  obtain ⟨-, -, hn, -, -⟩ := Config.wellFormed_facts hc
  exact ⟨getMemory_setMemory_cast hn a b v s, setMemory_registers c b v s, setMemory_isHalted c b v s, .setMemory c b v s⟩

/-- Settles O9: the transaction answers with what `getArgument` has, which is no value. -/
theorem argumentIsRefusedWhenNothingResolves : Obligations.ArgumentIsRefusedWhenNothingResolves := by
  unfold Obligations.ArgumentIsRefusedWhenNothingResolves
  intro P e _ s n hl
  refine ⟨getArgument_of_lookup_eq_none hl n, ?refused⟩
  case refused =>
    intro hw
    rw [transact_of_wellFormed hw, answer_getArgument_of_lookup_eq_none hl]

/-- Settles O42: the state differs in `periph` alone, and in it the call reaches the addressed slot alone. -/
theorem peripheralOperationTouchesItsOwnSlot : Obligations.PeripheralOperationTouchesItsOwnSlot := by
  unfold Obligations.PeripheralOperationTouchesItsOwnSlot
  intro P e p op args s t v h
  obtain ⟨x, hcall, rfl⟩ := peripheralCall_spec h
  exact ⟨rfl, rfl, rfl, rfl, rfl, e.peripherals.call_spec hcall⟩

end Sys2Proof.Machine

/-! PROOF. The family of spec/42_pipeline_engine.md: what each default phase does (R131, R132), that three steps are the composite
cycle of R138 and run the instruction at IP (R133, R134), the no-operation of R143, and that `run` is repeated `step` (R136). -/

namespace Sys2Proof.Machine

section Support

variable {P : Type} {c : Config} {e : Engine P} {s t : State P}

/-! ### What the default phases store -/

/-- R107 for a value that is not negative, as every value that a phase writes to IP is. -/
theorem wrapIP_natCast (c : Config) (v : Nat) : wrapIP c (v : Int) = v % 2 ^ c.registerBitWidth % c.numMemoryAddresses := by
  rw [wrapIP, constrainRegisterValue_natCast, constrainAddress_natCast]

/-- R131, D32: the opcode in IS as a remainder. -/
theorem fetchedOpcode_eq_mod (c : Config) (s : State P) :
    fetchedOpcode c s = getMemory c (getRegister c c.ip s) s % 2 ^ c.registerBitWidth :=
  constrainRegisterValue_natCast _ _

/-- R131: `fetch` writes IS and no other register. -/
theorem SameRegistersExcept.fetch (c : Config) (s : State P) : SameRegistersExcept c [c.is] s (fetch c s) :=
  .setRegister c c.is _ s

/-- R132: `increment` writes IP and no other register. -/
theorem SameRegistersExcept.increment (c : Config) (s : State P) : SameRegistersExcept c [c.ip] s (increment c s) :=
  .setRegister c c.ip _ s

/-- R132: IP after `increment`, as remainders. -/
theorem getRegister_ip_increment (hr : s.registers.length = c.registerNames.length) :
    getRegister c c.ip (increment c s)
      = (getRegister c c.ip s + lengthOf c (getRegister c c.is s)) % 2 ^ c.registerBitWidth % c.numMemoryAddresses := by
  rw [getRegister_increment c s c.ip (register_lt_length hr c.ip), if_pos rfl, ← Nat.cast_add, wrapIP_natCast]

/-- R62: an opcode that resolves to nothing counts as one cell. -/
theorem lengthOf_of_lookup_eq_none {op : Nat} (hl : lookup c op = none) : lengthOf c op = 1 := by
  simp only [lengthOf, hl]

/-! ### The state before `execute` -/

@[simp] theorem getMemory_beforeExecute (c d : Config) (s : State P) (a : Int) :
    getMemory d a (beforeExecute c s) = getMemory d a s := rfl

@[simp] theorem beforeExecute_periph (c : Config) (s : State P) : (beforeExecute c s).periph = s.periph := rfl

@[simp] theorem beforeExecute_registers_length (c : Config) (s : State P) :
    (beforeExecute c s).registers.length = s.registers.length := by
  simp [beforeExecute]

/-- R117: neither of the first two phases ends a cycle. -/
theorem beforeExecute_executionStep (hp : s.pipelineStep = 0) : (beforeExecute c s).executionStep = s.executionStep := by
  simp [beforeExecute, hp]

/-- R131, R132: the first two phases write IS and IP and no other register. -/
theorem SameRegistersExcept.beforeExecute (hc : c.wellFormed = true) (hr : s.registers.length = c.registerNames.length) :
    SameRegistersExcept c [c.is, c.ip] s (beforeExecute c s) := by
  refine ⟨beforeExecute_registers_length c s, ?_⟩
  intro q hq
  obtain ⟨his, hip⟩ : q ≠ c.is ∧ q ≠ c.ip := by simpa using hq
  rw [getRegister_beforeExecute hc hr, if_neg hip, if_neg his]

/-- R131: the opcode stands in IS. -/
theorem getRegister_is_beforeExecute (hc : c.wellFormed = true) (hr : s.registers.length = c.registerNames.length) :
    getRegister c c.is (beforeExecute c s) = fetchedOpcode c s := by
  obtain ⟨-, -, -, -, hne⟩ := Config.wellFormed_facts hc
  rw [getRegister_beforeExecute hc hr, if_neg hne.symm, if_pos rfl]

/-- R34: `fetch` keeps the invariants. -/
theorem Inv.fetch (hc : e.config.wellFormed = true) (hi : Inv e s) : Inv e (fetch e.config s) :=
  hi.setRegister hc _ _

/-- R34: `increment` keeps the invariants. -/
theorem Inv.increment (hc : e.config.wellFormed = true) (hi : Inv e s) : Inv e (increment e.config s) :=
  hi.setRegister hc _ _

/-- R34: so they hold before `execute`. -/
theorem Inv.beforeExecute (hd : e.pipeline = none) (hc : e.config.wellFormed = true) (hi : Inv e s) :
    Inv e (beforeExecute e.config s) := by
  have h := ((hi.fetch hc).advancePipeline.increment hc).advancePipeline
  rwa [length_default hd] at h

/-! ### An unresolved opcode -/

/-- R132: IP is one on. -/
theorem getRegister_ip_beforeExecute_of_unresolved (hc : c.wellFormed = true)
    (hr : s.registers.length = c.registerNames.length) (hl : lookup c (fetchedOpcode c s) = none) :
    getRegister c c.ip (beforeExecute c s)
      = (getRegister c c.ip s + 1) % 2 ^ c.registerBitWidth % c.numMemoryAddresses := by
  rw [getRegister_beforeExecute hc hr, if_pos rfl, lengthOf_of_lookup_eq_none hl, ← Nat.cast_add, wrapIP_natCast]

/-- R133: the third step of its cycle is the engine's one abnormal event, or nothing. -/
theorem engineSteps_of_unresolved (hc : e.config.wellFormed = true) (hd : e.pipeline = none)
    (hreg : s.registers.length = e.config.registerNames.length) (hr : s.isHalted = false) (hp : s.pipelineStep = 0)
    (hl : lookup e.config (fetchedOpcode e.config s) = none) :
    engineSteps e 3 s = .next (advancePipeline 3 (unresolvedHalt e.config (beforeExecute e.config s))) := by
  have his := getRegister_is_beforeExecute hc hreg
  exact engineSteps_cycle hd hr hp (execute_of_lookup_eq_none (his.symm ▸ hl))

/-! ### The composite cycle of R138 -/

/-- R131, D32: `fetch` stores the masked opcode, since masking it again in the write to IS changes nothing. -/
theorem fetch_eq_setRegister (hc : c.wellFormed = true) (s : State P) :
    fetch c s = setRegister c c.is (fetchedOpcode c s) s := by
  obtain ⟨-, -, -, -, hne⟩ := Config.wellFormed_facts hc
  have hstored : storedInRegister c c.is (getMemory c (getRegister c c.ip s) s)
      = storedInRegister c c.is (fetchedOpcode c s) := by
    simp only [storedInRegister, if_neg hne.symm, fetchedOpcode, constrainRegisterValue_idem]
  exact congrArg (fun v => { s with registers := s.registers.set c.is.val v }) hstored

/-- R138: the first two phases are the two register writes of the rule's pseudocode; `increment` reads the IP that `fetch` left and
the opcode that `fetch` stored. -/
theorem beforeExecute_eq_setRegister (hc : c.wellFormed = true) (hr : s.registers.length = c.registerNames.length)
    (hp : s.pipelineStep = 0) :
    beforeExecute c s =
      { setRegister c c.ip ((getRegister c c.ip s : Int) + lengthOf c (fetchedOpcode c s))
          (setRegister c c.is (fetchedOpcode c s) s) with pipelineStep := 2 } := by
  obtain ⟨-, -, -, -, hne⟩ := Config.wellFormed_facts hc
  rw [beforeExecute, increment, getRegister_advancePipeline, getRegister_advancePipeline,
    getRegister_fetch_of_wellFormed hc hr, getRegister_fetch_of_wellFormed hc hr, if_neg hne, if_pos rfl,
    fetch_eq_setRegister hc]
  simp [advancePipeline, setRegister, hp]

/-- R143, R171: what an unresolved opcode does is the same whatever the phase index. -/
theorem endCycle_unresolvedHalt (c : Config) (n p : Nat) (s : State P) :
    endCycle n (unresolvedHalt c { s with pipelineStep := p }) = endCycle n (unresolvedHalt c s) := by
  unfold unresolvedHalt
  cases c.unresolvedExecute <;> rfl

/-- R138: the composite is what `execute` makes of the state before it, with the cycle ended. -/
theorem cycle_of_execute (hc : e.config.wellFormed = true) (hr : s.registers.length = e.config.registerNames.length)
    (hp : s.pipelineStep = 0) (h : execute e (beforeExecute e.config s) = .next t) :
    cycle e s = .next (endCycle s.executionStep t) := by
  have his := getRegister_is_beforeExecute hc hr
  have heq := beforeExecute_eq_setRegister hc hr hp
  cases hl : lookup e.config (fetchedOpcode e.config s) with
  | some i =>
    rw [execute_of_lookup_eq_some (his.symm ▸ hl), his, heq] at h
    simp only [fetchedOpcode] at hl h
    simp only [cycle, hl, h]
  | none =>
    rw [execute_of_lookup_eq_none (his.symm ▸ hl), heq] at h
    cases h
    simp only [fetchedOpcode] at hl ⊢
    simp only [cycle, hl, endCycle_unresolvedHalt]

/-- R117: advancing from the last phase of the default pipeline ends the cycle. -/
theorem advancePipeline_eq_endCycle {n : Nat} (hp : t.pipelineStep = 2) (hx : t.executionStep = n) :
    advancePipeline 3 t = endCycle n t := by
  simp [advancePipeline, endCycle, hp, hx]

/-- R120: allowed writes leave the counters, so after any of them the third phase ends the cycle. -/
theorem AccessorWrites.advancePipeline_eq_endCycle (hc : e.config.wellFormed = true) (hp : s.pipelineStep = 0)
    (hw : AccessorWrites e (beforeExecute e.config s) t) : advancePipeline 3 t = endCycle s.executionStep t := by
  obtain ⟨-, hpipeline, hexecution, -⟩ := AccessorWrites.spec hc hw
  exact Sys2Proof.Machine.advancePipeline_eq_endCycle (hpipeline.trans (beforeExecute_pipelineStep hp))
    (hexecution.trans (beforeExecute_executionStep hp))

/-! ### `execute` of REF8 -/

/-- R63: an instruction of REF8 has one cell or two. -/
theorem ipIncrement_of_mem_opcodeRows : ∀ row ∈ opcodeRows, row.2.ipIncrement = 1 ∨ row.2.ipIncrement = 2 := by
  decide

/-- R60 to R65: what two cells that decode say of the machine's own decoding: the opcode resolves, to an instruction of as many
cells as the encoding, and with the operand that this instruction reads it makes the decoded one. -/
theorem lookup_of_decode {op arg : Nat} {i : Instr} {rest : List Nat} (hd : decode [op, arg] = .ok (i, rest)) :
    ∃ h : InstructionHeader, lookup ref8 op = some h ∧ h.ipIncrement = (encode i).length ∧ opcodeOf i = op
      ∧ instrOf op (if h.ipIncrement = 1 then 0 else arg) = some i := by
  obtain ⟨op', h, -, hl, hcells⟩ := decode_cases hd
  obtain ⟨⟨h', hl', hlen⟩, -⟩ := encodedCells i
  have hi : op' = op ∧ instrOf op (if h.ipIncrement = 1 then 0 else arg) = some i := by
    rcases hcells with ⟨hh, hcells, hi⟩ | ⟨hh, arg', -, hcells, hi⟩
    · cases hcells
      exact ⟨rfl, by rwa [if_pos hh]⟩
    · cases hcells
      exact ⟨rfl, by rwa [if_neg hh]⟩
  obtain ⟨rfl, hi⟩ := hi
  obtain ⟨hop, -⟩ := instrOf_eq_some hi
  cases (hop ▸ hl').symm.trans hl
  exact ⟨h, (lookup_ref8 op').trans hl, hlen.symm, hop, hi⟩

/-- R114: the operand of the instruction in IS is the cell before IP. -/
theorem executingOperand_ref8 {s : State} {h : InstructionHeader} (hl : lookup ref8 (getRegister ref8 regIS s) = some h) :
    executingOperand ref8 s
      = some (if h.ipIncrement = 1 then 0 else getMemory ref8 ((getRegister ref8 regIP s : Int) - 1) s) := by
  have hl' : lookup ref8 (getRegister ref8 ref8.is s) = some h := ref8_is ▸ hl
  have hlen : h.ipIncrement = 1 ∨ h.ipIncrement = 2 :=
    ipIncrement_of_mem_opcodeRows _ (mem_of_lookup_eq_some ((lookup_ref8 _).symm.trans hl))
  simp only [executingOperand, hl', getArgument_of_lookup hl']
  rcases hlen with hlen | hlen <;> simp [hlen, ref8_ip]

/-- R133: where IS and the cell before IP decode, `execute` is the meaning of the decoded instruction. -/
theorem execute_of_decode {s : State} {i : Instr} {rest : List Nat}
    (hd : decode [getRegister ref8 regIS s, getMemory ref8 ((getRegister ref8 regIP s : Int) - 1) s] = .ok (i, rest)) :
    execute ref8Engine s = exec i s := by
  obtain ⟨h, hl, -, -, hi⟩ := lookup_of_decode hd
  have his : getRegister ref8Engine.config ref8Engine.config.is s = getRegister ref8 regIS s := rfl
  rw [execute_of_lookup_eq_some (his.symm ▸ hl), his, effect_ref8Engine hl]
  simp only [ref8Effect, executingOperand_ref8 hl, hi]

/-- R120: the meaning of every instruction of REF8 answers by allowed writes. -/
theorem exec_next (i : Instr) (s : State) : ∃ t : State, exec i s = .next t ∧ AccessorWrites ref8Engine s t :=
  ref8Engine_eq_variant ▸ exec_next_accessorWrites none .halt (fun _ _ => .refused .noEffect) i s

/-! ### Pulls -/

/-- R136: what the results of `k` pulls are. -/
structure HandsSteps (e : Engine P) (k : Nat) (s : State P) (results : List (Result P)) : Prop where
  /-- each pull hands at most one result -/
  bound : results.length ≤ k
  /-- a result is one step more than the one before it, asked of a machine that runs -/
  each : ∀ i : Nat, i < results.length → results[i]? = some (engineSteps e (i + 1) s)
    ∧ ∃ u : State P, engineSteps e i s = .next u ∧ u.isHalted = false
  /-- the results end early only where the machine is halted -/
  last : results.length < k → ∃ t : State P, engineSteps e results.length s = .next t ∧ t.isHalted = true

/-- Many steps, the first of them answered. -/
theorem engineSteps_succ_of_engineStep (h : engineStep e s = .next t) (k : Nat) : engineSteps e (k + 1) s = engineSteps e k t := by
  rw [engineSteps, h]

/-- R136: a pull on a running machine hands one step's answer, and the next pulls go on from there. -/
theorem pulled_succ_of_engineStep (hr : s.isHalted = false) (h : engineStep e s = .next t) (k : Nat) :
    pulled e (k + 1) s = .next t :: pulled e k t := by
  simp [pulled, hr, h]

/-- No pull hands nothing. -/
theorem HandsSteps.zero (e : Engine P) (s : State P) : HandsSteps e 0 s [] where
  bound := le_rfl
  each _ hi := absurd hi (Nat.not_lt_zero _)
  last h := absurd h (Nat.not_lt_zero _)

/-- D31: nothing is handed from a halted machine. -/
theorem HandsSteps.halted (hh : s.isHalted = true) (k : Nat) : HandsSteps e k s [] where
  bound := Nat.zero_le k
  each _ hi := absurd hi (Nat.not_lt_zero _)
  last _ := ⟨s, rfl, hh⟩

/-- R136: one pull more in front. -/
theorem HandsSteps.cons {k : Nat} {results : List (Result P)} (hr : s.isHalted = false) (h : engineStep e s = .next t)
    (hk : HandsSteps e k t results) : HandsSteps e (k + 1) s (.next t :: results) where
  bound := Nat.succ_le_succ hk.bound
  each
    | 0, _ => ⟨by rw [engineSteps_succ_of_engineStep h]; rfl, s, rfl, hr⟩
    | i + 1, hi => by
      rw [engineSteps_succ_of_engineStep h, engineSteps_succ_of_engineStep h]
      exact hk.each i (Nat.lt_of_succ_lt_succ hi)
  last hlt := by
    rw [List.length_cons, engineSteps_succ_of_engineStep h]
    exact hk.last (Nat.lt_of_succ_lt_succ hlt)

/-- R136, by induction on the pulls. -/
theorem handsSteps_pulled (hw : e.WellFormed) (hi : Inv e s) (k : Nat) : HandsSteps e k s (pulled e k s) := by
  induction k generalizing s with
  | zero => exact .zero e s
  | succ k ih =>
    cases hh : s.isHalted with
    | true =>
      rw [pulled_halted hh]
      exact .halted hh (k + 1)
    | false =>
      obtain ⟨t, ht, hit⟩ := hw.engineStep_next hi
      rw [pulled_succ_of_engineStep hh ht]
      exact .cons hh ht (ih hit)

end Support

/-! ### The statements -/

/-- Settles O16: `fetch` is one register write, and IS is not IP, so it is masked and not wrapped. -/
theorem fetchLoadsTheOpcodeCell : Obligations.FetchLoadsTheOpcodeCell := by
  unfold Obligations.FetchLoadsTheOpcodeCell
  intro P e s hw hd hi hr hp
  refine ⟨_, engineStep_fetch hd hr hp, ?is, .fetch e.config s, getMemory_fetch e.config e.config s, hr, rfl,
    by simp [hp], by simp [hp]⟩
  case is =>
    rw [getRegister_advancePipeline, getRegister_fetch_of_wellFormed hw.config hi.registerCount, if_pos rfl,
      fetchedOpcode_eq_mod]

/-- Settles O17: `increment` is one register write, by the length that `lookup` gives. -/
theorem incrementAdvancesByTheLength : Obligations.IncrementAdvancesByTheLength := by
  unfold Obligations.IncrementAdvancesByTheLength
  intro P e s _ hd hi hr hp
  have hip := getRegister_ip_increment hi.registerCount
  refine ⟨_, engineStep_increment hd hr hp, ?resolved, ?unresolved, .increment e.config s,
    getMemory_increment e.config e.config s, hr, rfl, by simp [hp], by simp [hp]⟩
  case resolved =>
    intro h hl
    rw [getRegister_advancePipeline, hip, lengthOf_of_lookup hl]
  case unresolved =>
    intro hl
    rw [getRegister_advancePipeline, hip, lengthOf_of_lookup_eq_none hl]

/-- Settles O19: the third phase does nothing, so the first two made the state that the cycle ends in. -/
theorem unresolvedOpcodeIsANopInTheNopVariant : Obligations.UnresolvedOpcodeIsANopInTheNopVariant := by
  unfold Obligations.UnresolvedOpcodeIsANopInTheNopVariant
  intro P e s op hw hd hv hi hr hp hop hl
  obtain rfl : op = fetchedOpcode e.config s := hop.trans (fetchedOpcode_eq_mod e.config s).symm
  have hsteps := engineSteps_of_unresolved hw.config hd hi.registerCount hr hp hl
  have hnop : unresolvedHalt e.config (beforeExecute e.config s) = beforeExecute e.config s := by
    simp only [unresolvedHalt, hv]
  rw [hnop] at hsteps
  refine ⟨_, hsteps, hr, getRegister_is_beforeExecute hw.config hi.registerCount,
    getRegister_ip_beforeExecute_of_unresolved hw.config hi.registerCount hl, .beforeExecute hw.config hi.registerCount,
    getMemory_beforeExecute e.config e.config s, rfl, ?phase, ?counted⟩
  case phase => simp [beforeExecute_pipelineStep hp]
  case counted => simp [beforeExecute_pipelineStep hp, beforeExecute_executionStep hp]

/-- Settles O21: both sides are what `execute` makes of the state before it, and `execute` leaves the counters. -/
theorem threeStepsAreOneCycle : Obligations.ThreeStepsAreOneCycle := by
  unfold Obligations.ThreeStepsAreOneCycle
  intro P e s hw hd hi hr hp
  obtain ⟨t, ht, hwrites⟩ := hw.execute_next (hi.beforeExecute hd hw.config)
  rw [engineSteps_cycle hd hr hp ht, cycle_of_execute hw.config hi.registerCount hp ht,
    hwrites.advancePipeline_eq_endCycle hw.config hp]

/-- Settles O22: the operand that `execute` reads is the cell before IP, the second of the two that decode. -/
theorem stepRunsTheDecodedInstruction : Obligations.StepRunsTheDecodedInstruction := by
  unfold Obligations.StepRunsTheDecodedInstruction
  intro s i rest hr hp hd
  obtain ⟨t, ht, -⟩ := exec_next i s
  exact ⟨t, ht, engineStep_execute rfl hr hp ((execute_of_decode hd).trans ht)⟩

/-- Settles O23: the state `u` is the one that the first two phases make. -/
theorem aCycleRunsTheInstructionAtIp : Obligations.ACycleRunsTheInstructionAtIp := by
  unfold Obligations.ACycleRunsTheInstructionAtIp
  intro s i rest hi hr hp hd
  have hs : AtOpcode (getMemory ref8 (getRegister ref8 regIP s) s) s := ⟨hi, hr, hp, rfl⟩
  obtain ⟨h, hl, hlen, hop, hinstr⟩ := lookup_of_decode hd
  obtain ⟨t, ht, hwrites⟩ := exec_next i (beforeExecute ref8 s)
  have hreg := hs.getRegister_beforeExecute hl
  have hend : advancePipeline 3 t = endCycle s.executionStep t := hwrites.advancePipeline_eq_endCycle ref8_wellFormed hp
  refine ⟨beforeExecute ref8 s, t, ht, hi.beforeExecute rfl ref8_wellFormed, (hreg regIS).trans hop.symm, ?ip,
    .beforeExecute ref8_wellFormed hi.registerCount, getMemory_beforeExecute ref8 ref8 s, hr, rfl,
    beforeExecute_pipelineStep hp, beforeExecute_executionStep hp, ?run⟩
  case ip => exact hlen ▸ hreg regIP
  case run =>
    rw [hs.run_cycle hl hinstr ht, hend]
    rfl

/-- Settles O47: on a well-formed engine `run` is what is pulled. -/
theorem runIsRepeatedStep : Obligations.RunIsRepeatedStep := by
  unfold Obligations.RunIsRepeatedStep
  intro P e _ k s hw hi
  rw [run_of_wellFormed hw]
  obtain ⟨hbound, heach, hlast⟩ := handsSteps_pulled hw hi k
  exact ⟨hbound, heach, hlast⟩

end Sys2Proof.Machine

/-! PROOF. The family of spec/43_reference_table.md: which opcodes resolve (R150, R162), the written-out words, what the meaning of
each instruction of REF8 does and leaves as it was (R151 to R161), and the whole cycle of each (R138). -/

namespace Sys2Proof.Machine

section Support

variable {P : Type} {c : Config} {s t u : State P} {w w' : List (Register c)}

/-! ### The opcodes that resolve -/

/-- R150: exactly the eleven rows. -/
theorem opcodeRows_lookup_isSome_iff (op : Nat) :
    (opcodeRows.lookup op).isSome = true ↔ op ∈ [0, 1, 17, 18, 19, 20, 21, 22, 23, 33, 34] := by
  have hrows : ∀ k ∈ [0, 1, 17, 18, 19, 20, 21, 22, 23, 33, 34], (opcodeRows.lookup k).isSome = true := by decide
  refine ⟨fun h => ?_, hrows op⟩
  simpa using opcodeRows_lookup_isSome op h

/-- R162. -/
theorem ref8UResolver_isSome_iff (op : Nat) : (ref8UResolver op).isSome = true ↔ 128 ≤ op ∧ op ≤ 255 := by
  by_cases h : 128 ≤ op ∧ op ≤ 255 <;> simp [ref8UResolver, h]

/-- R65, R69: with a resolver, an opcode resolves by the table or by the resolver. -/
theorem lookup_isSome_of_resolver {resolve : Nat → Option InstructionHeader}
    (hc : c.undocumentedOpcodeResolver = some resolve) (op : Nat) :
    (lookup c op).isSome = true ↔ (c.instructionTable.lookup op).isSome = true ∨ (resolve op).isSome = true := by
  unfold lookup
  rw [hc]
  cases c.instructionTable.lookup op <;> simp

/-- R68: a cell whose value is no opcode of REF8 is rejected by its value, whatever follows. -/
theorem decode_of_lookup_eq_none {op : Nat} (hop : op < 256) (hl : opcodeRows.lookup op = none) (rest : List Nat) :
    decode (op :: rest) = .error (.unresolvedOpcode op) := by
  simp only [decode, if_neg hop.not_ge, hl]

/-! ### The frame of an effect that writes registers alone -/

/-- Everything but the listed registers is as before, in the order in which the statements about effects list it. -/
def OnlyRegistersWritten (c : Config) (written : List (Register c)) (s t : State P) : Prop :=
  SameRegistersExcept c written s t ∧ SameMemory c s t ∧ t.isHalted = s.isHalted ∧ SamePosition s t

theorem SameRegistersExcept.refl (w : List (Register c)) (s : State P) : SameRegistersExcept c w s s :=
  ⟨rfl, fun _ _ => rfl⟩

theorem SameRegistersExcept.trans (h : SameRegistersExcept c w s t) (h' : SameRegistersExcept c w' t u) :
    SameRegistersExcept c (w ++ w') s u := by
  obtain ⟨hlen, hregs⟩ := h
  obtain ⟨hlen', hregs'⟩ := h'
  refine ⟨hlen'.trans hlen, fun r hr => ?_⟩
  obtain ⟨hw, hw'⟩ := not_or.mp (List.mem_append.not.mp hr)
  exact (hregs' r hw').trans (hregs r hw)

theorem SameRegistersExcept.mono (h : SameRegistersExcept c w s t) (hw : ∀ r ∈ w, r ∈ w') : SameRegistersExcept c w' s t := by
  obtain ⟨hlen, hregs⟩ := h
  exact ⟨hlen, fun r hr => hregs r fun hm => hr (hw r hm)⟩

theorem SamePosition.refl (s : State P) : SamePosition s s :=
  ⟨rfl, rfl, rfl⟩

/-- No write at all. -/
theorem OnlyRegistersWritten.refl (w : List (Register c)) (s : State P) : OnlyRegistersWritten c w s s :=
  ⟨.refl w s, fun _ => rfl, rfl, .refl s⟩

/-- R111: one register write. -/
theorem OnlyRegistersWritten.setRegister (c : Config) (r : Register c) (v : Int) (s : State P) :
    OnlyRegistersWritten c [r] s (setRegister c r v s) :=
  ⟨.setRegister c r v s, .setRegister c r v s, setRegister_isHalted c r v s, .setRegister c r v s⟩

/-- One effect after another. -/
theorem OnlyRegistersWritten.trans (h : OnlyRegistersWritten c w s t) (h' : OnlyRegistersWritten c w' t u) :
    OnlyRegistersWritten c (w ++ w') s u := by
  obtain ⟨hregs, hmem, hflag, hperiph, hpipeline, hexecution⟩ := h
  obtain ⟨hregs', hmem', hflag', hperiph', hpipeline', hexecution'⟩ := h'
  exact ⟨hregs.trans hregs', fun b => (hmem' b).trans (hmem b), hflag'.trans hflag,
    hperiph'.trans hperiph, hpipeline'.trans hpipeline, hexecution'.trans hexecution⟩

/-- R113: a memory write reaches one cell alone. -/
theorem SameMemoryExcept.setMemory (hn : 1 ≤ c.numMemoryAddresses) (a v : Int) (s : State P) :
    SameMemoryExcept c a s (setMemory c a v s) := by
  intro b hb
  have hne : constrainAddress c.numMemoryAddresses b ≠ constrainAddress c.numMemoryAddresses a :=
    (constrainAddress_eq_iff hn b a).not.mpr hb
  rw [getMemory_setMemory, if_neg hne]

/-- R113: and no register. -/
theorem SameRegistersExcept.setMemory (w : List (Register c)) (a v : Int) (s : State P) :
    SameRegistersExcept c w s (setMemory c a v s) :=
  .refl w s

end Support

/-! ### What the meanings of REF8 store -/

section Ref8

variable {s t : State}

/-- R111, R107: a register of REF8, IP too, stores the value modulo 256, because N is `2^REGW`. -/
theorem storedInRegister_ref8 (r : Register ref8) (v : Int) : (storedInRegister ref8 r v : Int) = v % 256 := by
  by_cases hr : r = ref8.ip
  · subst hr
    exact (storedInRegister_ip_cast (by decide) v).trans (Int.emod_emod v 256)
  · exact storedInRegister_cast_of_ne_ip hr v

/-- R111: a register of REF8 read after a write of an integer. -/
theorem getRegister_setRegister_ref8 (hr : s.registers.length = 4) (r : Register ref8) (v : Int) :
    (getRegister ref8 r (setRegister ref8 r v s) : Int) = v % 256 := by
  rw [getRegister_setRegister_same r v (register_lt_length hr r), storedInRegister_ref8]

/-- R111: a register of REF8 read after a write of a natural number. -/
theorem getRegister_setRegister_ref8_natCast (hr : s.registers.length = 4) (r : Register ref8) (v : Nat) :
    getRegister ref8 r (setRegister ref8 r v s) = v % 256 := by
  exact_mod_cast getRegister_setRegister_ref8 hr r v

/-- R113: a cell of REF8 read at the address of a write. -/
theorem getMemory_setMemory_ref8 (a : Int) (v : Nat) (s : State) : getMemory ref8 a (setMemory ref8 a v s) = v % 256 := by
  rw [getMemory_setMemory, if_pos rfl, constrainMemoryValue_natCast]
  rfl

/-! ### The meanings of REF8, as the writes that they are -/

theorem exec_halt (s : State) : exec .halt s = .next (setHalt s) := rfl

theorem exec_nop (s : State) : exec .nop s = .next s := rfl

theorem exec_ldr0 (imm : Nat) (s : State) : exec (.ldr0 imm) s = .next (setRegister ref8 regR0 imm s) := rfl

theorem exec_ldr1 (imm : Nat) (s : State) : exec (.ldr1 imm) s = .next (setRegister ref8 regR1 imm s) := rfl

theorem exec_load (addr : Nat) (s : State) :
    exec (.load addr) s = .next (setRegister ref8 regR0 (getMemory ref8 addr s) s) := rfl

theorem exec_store (addr : Nat) (s : State) :
    exec (.store addr) s = .next (setMemory ref8 addr (getRegister ref8 regR0 s) s) := rfl

theorem exec_add (s : State) :
    exec .add s = .next (setRegister ref8 regR0 ((getRegister ref8 regR0 s : Int) + getRegister ref8 regR1 s) s) := rfl

theorem exec_sub (s : State) :
    exec .sub s = .next (setRegister ref8 regR0 ((getRegister ref8 regR0 s : Int) - getRegister ref8 regR1 s) s) := rfl

theorem exec_swap (s : State) :
    exec .swap s = .next (setRegister ref8 regR1 (getRegister ref8 regR0 s)
      (setRegister ref8 regR0 (getRegister ref8 regR1 s) s)) := rfl

theorem exec_jmp (target : Nat) (s : State) : exec (.jmp target) s = .next (setRegister ref8 regIP target s) := rfl

theorem exec_jz_taken (target : Nat) (hz : getRegister ref8 regR0 s = 0) :
    exec (.jz target) s = .next (setRegister ref8 regIP target s) :=
  if_pos hz

theorem exec_jz_not_taken (target : Nat) (hz : getRegister ref8 regR0 s ≠ 0) : exec (.jz target) s = .next s :=
  if_neg hz

/-! ### The cycle of an instruction of REF8 -/

/-- R60, R64: a running REF8 machine between two instructions, the cells of instruction `i` at IP. -/
structure InstrAtIP (i : Instr) (s : State) : Prop where
  /-- its opcode -/
  atOpcode : AtOpcode (opcodeOf i) s
  /-- the operand cell, where it has one -/
  operand : ∀ a ∈ i.operand?, a = getMemory ref8 ((getRegister ref8 regIP s : Int) + 1) s

/-- R63, format F1: the opcode is the whole instruction. -/
theorem InstrAtIP.oneCell {i : Instr} (hs : AtOpcode (opcodeOf i) s) (ho : i.operand? = none) : InstrAtIP i s :=
  ⟨hs, fun a ha => by rw [ho] at ha; cases ha⟩

/-- R63, R64, format F2: the operand is the cell after the opcode. -/
theorem InstrAtIP.twoCells {i : Instr} (hs : AtOpcode (opcodeOf i) s)
    (ho : i.operand? = some (getMemory ref8 ((getRegister ref8 regIP s : Int) + 1) s)) : InstrAtIP i s :=
  ⟨hs, fun a ha => by rw [ho] at ha; exact (Option.mem_some.mp ha).symm⟩

variable {i : Instr} {w written : List (Register ref8)}

/-- R65, R114: the machine resolves the opcode to an Instruction of as many cells as the encoding, and with the operand that it
reads the opcode makes `i`. -/
theorem InstrAtIP.exists_lookup (hs : InstrAtIP i s) :
    ∃ h : InstructionHeader, lookup ref8 (opcodeOf i) = some h ∧ h.ipIncrement = (encode i).length
      ∧ instrOf (opcodeOf i) (operandAtIP h s) = some i := by
  obtain ⟨⟨h, hl, hlen⟩, -, -, hi⟩ := encodedCells i
  refine ⟨h, (lookup_ref8 _).trans hl, hlen.symm, ?_⟩
  have hoperand : operandAtIP h s = i.operand?.getD 0 := by
    cases ho : i.operand? with
    | none =>
      rw [encode_of_operand_eq_none ho] at hlen
      exact if_pos hlen.symm
    | some arg =>
      rw [encode_of_operand_eq_some ho] at hlen
      exact (if_neg (by simp [← hlen])).trans (hs.operand arg ho).symm
  rw [hoperand]
  exact hi

/-- R138: three steps of the host are the meaning of the instruction at IP, on the state before `execute`. -/
theorem InstrAtIP.run (hs : InstrAtIP i s) (ht : exec i (beforeExecute ref8 s) = .next t) :
    Host.Core.run Sys2Proof.core 3 s = .next (advancePipeline 3 t) := by
  obtain ⟨h, hl, -, hi⟩ := hs.exists_lookup
  exact hs.atOpcode.run_cycle hl hi ht

/-- R131, R132: the registers that the meaning of the instruction at IP finds. -/
theorem InstrAtIP.getRegister_beforeExecute (hs : InstrAtIP i s) (q : Register ref8) :
    getRegister ref8 q (beforeExecute ref8 s) =
      if q = regIP then (getRegister ref8 regIP s + (encode i).length) % 256
      else if q = regIS then opcodeOf i else getRegister ref8 q s := by
  obtain ⟨h, hl, hlen, -⟩ := hs.exists_lookup
  rw [hs.atOpcode.getRegister_beforeExecute hl, hlen]

/-- R138: what the first two phases and `advancePipeline` make of the frame of an effect that does not write IS. -/
theorem InstrAtIP.cycleOf (hs : InstrAtIP i s) (hregs : SameRegistersExcept ref8 w (beforeExecute ref8 s) t)
    (hpos : SamePosition (beforeExecute ref8 s) t) (his : regIS ∉ w) (hw : ∀ r ∈ w, r ∈ regIP :: regIS :: written) :
    CycleOf (opcodeOf i) written s (advancePipeline 3 t) := by
  obtain ⟨hperiph, hpipeline, hexecution⟩ := hpos
  have hphase : t.pipelineStep = 2 := hpipeline.trans (beforeExecute_pipelineStep hs.atOpcode.start)
  have hcount : t.executionStep = s.executionStep := hexecution.trans (beforeExecute_executionStep hs.atOpcode.start)
  have hbefore : SameRegistersExcept ref8 [regIS, regIP] s (beforeExecute ref8 s) :=
    .beforeExecute ref8_wellFormed hs.atOpcode.registerCount
  refine ⟨by simp [hphase], by simp [hphase, hcount], hperiph, ?is, ?registers⟩
  case is => exact (hregs.2 regIS his).trans (hs.getRegister_beforeExecute regIS)
  case registers =>
    refine (hbefore.trans hregs).mono fun r hr => ?_
    rcases List.mem_append.mp hr with hphases | heffect
    · simp only [List.mem_cons, List.not_mem_nil, or_false] at hphases ⊢
      exact hphases.elim (.inr ∘ .inl) .inl
    · exact hw r heffect

/-- R25, R132: an effect that does not write IP leaves it at the next instruction. -/
theorem InstrAtIP.getRegister_ip (hs : InstrAtIP i s) (hregs : SameRegistersExcept ref8 w (beforeExecute ref8 s) t)
    (hip : regIP ∉ w) :
    getRegister ref8 regIP (advancePipeline 3 t) = (getRegister ref8 regIP s + (encode i).length) % 256 :=
  (hregs.2 regIP hip).trans (hs.getRegister_beforeExecute regIP)

/-- R131, R132: the meaning of the instruction at IP reads R0 as it was before the cycle. -/
theorem InstrAtIP.getRegister_r0_beforeExecute (hs : InstrAtIP i s) :
    getRegister ref8 regR0 (beforeExecute ref8 s) = getRegister ref8 regR0 s :=
  hs.getRegister_beforeExecute regR0

/-- R131, R132: and R1. -/
theorem InstrAtIP.getRegister_r1_beforeExecute (hs : InstrAtIP i s) :
    getRegister ref8 regR1 (beforeExecute ref8 s) = getRegister ref8 regR1 s :=
  hs.getRegister_beforeExecute regR1

/-- R138: the whole cycle of an instruction whose effect writes registers alone, and neither IP nor IS. -/
theorem InstrAtIP.cycle_of_onlyRegistersWritten (hs : InstrAtIP i s) (ht : exec i (beforeExecute ref8 s) = .next t)
    (hframe : OnlyRegistersWritten ref8 written (beforeExecute ref8 s) t) (hip : regIP ∉ written) (his : regIS ∉ written) :
    Host.Core.run Sys2Proof.core 3 s = .next (advancePipeline 3 t) ∧ (advancePipeline 3 t).isHalted = false
      ∧ getRegister ref8 regIP (advancePipeline 3 t) = (getRegister ref8 regIP s + (encode i).length) % 256
      ∧ SameMemory ref8 s (advancePipeline 3 t) ∧ CycleOf (opcodeOf i) written s (advancePipeline 3 t) := by
  obtain ⟨hregs, hmem, hflag, hpos⟩ := hframe
  exact ⟨hs.run ht, hflag.trans hs.atOpcode.running, hs.getRegister_ip hregs hip, hmem,
    hs.cycleOf hregs hpos his fun _ hr => List.mem_cons_of_mem _ (List.mem_cons_of_mem _ hr)⟩

/-- I6, for the meanings. -/
theorem AtOpcode.beforeExecute_registers_length {op : Nat} (hs : AtOpcode op s) : (beforeExecute ref8 s).registers.length = 4 :=
  (Sys2Proof.Machine.beforeExecute_registers_length ref8 s).trans hs.registerCount

/-- I1: a cell of REF8 fits a register. -/
theorem AtOpcode.getMemory_mod {op : Nat} (hs : AtOpcode op s) (a : Int) : getMemory ref8 a s % 256 = getMemory ref8 a s :=
  Nat.mod_eq_of_lt (Memory.read_lt s.memory 0 _ hs.inv.memory)

/-- I2: a register of REF8 holds its value modulo 256. -/
theorem AtOpcode.getRegister_mod {op : Nat} (hs : AtOpcode op s) (r : Register ref8) :
    getRegister ref8 r s % 256 = getRegister ref8 r s :=
  Nat.mod_eq_of_lt (getRegister_ref8_lt hs.inv r)

end Ref8

/-! ### The statements about resolution and decoding -/

/-- Settles O11: REF8 has its table alone, REF8U the resolver beside it. -/
theorem resolvedOpcodesOfTheReferenceTables : Obligations.ResolvedOpcodesOfTheReferenceTables := by
  unfold Obligations.ResolvedOpcodesOfTheReferenceTables
  refine ⟨fun op => ?ref8, fun op => ?ref8U⟩
  case ref8 => rw [lookup_ref8, opcodeRows_lookup_isSome_iff]
  case ref8U =>
    rw [lookup_isSome_of_resolver (c := ref8U) rfl]
    exact or_congr (opcodeRows_lookup_isSome_iff op) (ref8UResolver_isSome_iff op)

/-- Settles O15: each word is the encoding of a well-formed instruction, and 99 is no row of the table. -/
theorem writtenOutWordsDecode : Obligations.WrittenOutWordsDecode := by
  unfold Obligations.WrittenOutWordsDecode
  exact ⟨decode_encode (i := .halt) rfl [], decode_encode (i := .nop) rfl [],
    decode_encode (i := .ldr0 5) rfl [], decode_encode (i := .ldr1 200) rfl [],
    decode_encode (i := .load 3) rfl [], decode_encode (i := .store 255) rfl [],
    decode_encode (i := .add) rfl [], decode_encode (i := .sub) rfl [], decode_encode (i := .swap) rfl [],
    decode_encode (i := .jmp 2) rfl [], decode_encode (i := .jz 9) rfl [],
    decode_of_lookup_eq_none (by decide) rfl [0]⟩

/-! ### The statements about the effects -/

/-- Settles O24: HALT is one write of the flag, NOP no write. -/
theorem haltAndNopComplete : Obligations.HaltAndNopComplete := by
  unfold Obligations.HaltAndNopComplete
  intro s
  exact ⟨⟨_, exec_halt s, setHalt_isHalted s, .refl [] s, getMemory_setHalt ref8 s, .refl s⟩,
    ⟨_, exec_nop s, rfl, .refl [] s, fun _ => rfl, .refl s⟩⟩

/-- Settles O25: each is one register write. -/
theorem immediateLoadsComplete : Obligations.ImmediateLoadsComplete := by
  unfold Obligations.ImmediateLoadsComplete
  intro s imm hr
  have hvalue := fun r => getRegister_setRegister_ref8_natCast hr r imm
  have hframe := fun r => OnlyRegistersWritten.setRegister ref8 r imm s
  exact ⟨⟨_, exec_ldr0 imm s, hvalue regR0, hframe regR0⟩, ⟨_, exec_ldr1 imm s, hvalue regR1, hframe regR1⟩⟩

/-- Settles O26: one register write, of the cell. -/
theorem loadCompletes : Obligations.LoadCompletes := by
  unfold Obligations.LoadCompletes
  intro s addr hr
  exact ⟨_, exec_load addr s, getRegister_setRegister_ref8_natCast hr regR0 _, OnlyRegistersWritten.setRegister ref8 regR0 _ s⟩

/-- Settles O27: one memory write. -/
theorem storeCompletes : Obligations.StoreCompletes := by
  unfold Obligations.StoreCompletes
  intro s addr
  exact ⟨_, exec_store addr s, getMemory_setMemory_ref8 addr _ s, .setMemory (by decide) addr _ s, .setMemory [] addr _ s,
    setMemory_isHalted ref8 addr _ s, .setMemory ref8 addr _ s⟩

/-- Settles O28: one register write, of an integer that the write reduces. -/
theorem additionAndSubtractionComplete : Obligations.AdditionAndSubtractionComplete := by
  unfold Obligations.AdditionAndSubtractionComplete
  intro s hr
  exact ⟨⟨_, exec_add s, getRegister_setRegister_ref8 hr regR0 _, OnlyRegistersWritten.setRegister ref8 regR0 _ s⟩,
    ⟨_, exec_sub s, getRegister_setRegister_ref8 hr regR0 _, OnlyRegistersWritten.setRegister ref8 regR0 _ s⟩⟩

/-- Settles O29: two register writes of values read before them; the second leaves R0 as the first made it. -/
theorem swapCompletes : Obligations.SwapCompletes := by
  unfold Obligations.SwapCompletes
  intro s hr
  have hr' : (setRegister ref8 regR0 (getRegister ref8 regR1 s) s).registers.length = 4 :=
    (setRegister_registers_length ref8 regR0 _ s).trans hr
  refine ⟨_, exec_swap s, ?r0, getRegister_setRegister_ref8_natCast hr' regR1 _,
    (OnlyRegistersWritten.setRegister ref8 regR0 _ s).trans (.setRegister ref8 regR1 _ _)⟩
  case r0 =>
    rw [getRegister_setRegister_ne ref8 regR1 _ _ regR0 (by decide)]
    exact getRegister_setRegister_ref8_natCast hr regR0 _

/-- Settles O30: one write of IP, for JZ only where R0 is 0. -/
theorem jumpsComplete : Obligations.JumpsComplete := by
  unfold Obligations.JumpsComplete
  intro s target hr
  have hip := getRegister_setRegister_ref8_natCast hr regIP target
  have hframe := OnlyRegistersWritten.setRegister ref8 regIP target s
  refine ⟨⟨_, exec_jmp target s, hip, hframe⟩, ?jz⟩
  case jz =>
    by_cases hz : getRegister ref8 regR0 s = 0
    · exact ⟨_, exec_jz_taken target hz, hip.trans (if_pos hz).symm, hframe⟩
    · exact ⟨_, exec_jz_not_taken target hz, (if_neg hz).symm, OnlyRegistersWritten.refl [regIP] s⟩

/-! ### The statements about whole cycles: the effect (O24 to O30) on the state before `execute` -/

/-- Settles O31: the effect writes the flag alone. -/
theorem haltCycle : Obligations.HaltCycle := by
  unfold Obligations.HaltCycle
  intro s hs
  have hi : InstrAtIP .halt s := .oneCell hs rfl
  obtain ⟨⟨t, ht, hhalted, hregs, hmem, hpos⟩, -⟩ := haltAndNopComplete (beforeExecute ref8 s)
  exact ⟨_, hi.run ht, hhalted, hi.getRegister_ip hregs (by decide), hmem, hi.cycleOf hregs hpos (by decide) (by decide)⟩

/-- Settles O32: the cycle ends in the state before `execute`. -/
theorem nopCycle : Obligations.NopCycle := by
  unfold Obligations.NopCycle
  intro s hs
  have hi : InstrAtIP .nop s := .oneCell hs rfl
  exact ⟨_, hi.cycle_of_onlyRegistersWritten (exec_nop _) (.refl [] _) (by decide) (by decide)⟩

/-- Settles O33: the operand cell fits the register. -/
theorem immediateLoadCycles : Obligations.ImmediateLoadCycles := by
  unfold Obligations.ImmediateLoadCycles
  intro s
  refine ⟨fun hs => ?ldr0, fun hs => ?ldr1⟩
  case ldr0 =>
    have hi : InstrAtIP (.ldr0 _) s := .twoCells hs rfl
    obtain ⟨⟨t, ht, hvalue, hframe⟩, -⟩ := immediateLoadsComplete _ _ hs.beforeExecute_registers_length
    obtain ⟨hrun, hflag, hrest⟩ := hi.cycle_of_onlyRegistersWritten ht hframe (by decide) (by decide)
    exact ⟨_, hrun, hflag, hvalue.trans (hs.getMemory_mod _), hrest⟩
  case ldr1 =>
    have hi : InstrAtIP (.ldr1 _) s := .twoCells hs rfl
    obtain ⟨-, t, ht, hvalue, hframe⟩ := immediateLoadsComplete _ _ hs.beforeExecute_registers_length
    obtain ⟨hrun, hflag, hrest⟩ := hi.cycle_of_onlyRegistersWritten ht hframe (by decide) (by decide)
    exact ⟨_, hrun, hflag, hvalue.trans (hs.getMemory_mod _), hrest⟩

/-- Settles O34: the memory before `execute` is the memory before the cycle, so both reads are in it. -/
theorem loadCycle : Obligations.LoadCycle := by
  unfold Obligations.LoadCycle
  intro s hs
  have hi : InstrAtIP (.load _) s := .twoCells hs rfl
  obtain ⟨t, ht, hvalue, hframe⟩ := loadCompletes _ _ hs.beforeExecute_registers_length
  obtain ⟨hrun, hflag, hrest⟩ := hi.cycle_of_onlyRegistersWritten ht hframe (by decide) (by decide)
  exact ⟨_, hrun, hflag, hvalue.trans (hs.getMemory_mod _), hrest⟩

/-- Settles O35: the effect is one memory write, of R0 as it was before the cycle. -/
theorem storeCycle : Obligations.StoreCycle := by
  unfold Obligations.StoreCycle
  rintro s a hs rfl
  have hi : InstrAtIP (.store _) s := .twoCells hs rfl
  exact ⟨afterStore s, hs.run_store, hs.running, hs.getMemory_operand_afterStore,
    SameMemoryExcept.setMemory (by decide) _ _ (beforeExecute ref8 s), hs.getRegister_ip_afterStore,
    hi.cycleOf (.setMemory [] _ _ _) (.setMemory ref8 _ _ _) (by decide) (by decide)⟩

/-- Settles O36: both operands are registers that the first two phases leave. -/
theorem additionAndSubtractionCycles : Obligations.AdditionAndSubtractionCycles := by
  unfold Obligations.AdditionAndSubtractionCycles
  intro s
  refine ⟨fun hs => ?add, fun hs => ?sub⟩
  case add =>
    have hi : InstrAtIP .add s := .oneCell hs rfl
    obtain ⟨⟨t, ht, hvalue, hframe⟩, -⟩ := additionAndSubtractionComplete _ hs.beforeExecute_registers_length
    rw [hi.getRegister_r0_beforeExecute, hi.getRegister_r1_beforeExecute] at hvalue
    obtain ⟨hrun, hflag, hrest⟩ := hi.cycle_of_onlyRegistersWritten ht hframe (by decide) (by decide)
    exact ⟨_, hrun, hflag, hvalue, hrest⟩
  case sub =>
    have hi : InstrAtIP .sub s := .oneCell hs rfl
    obtain ⟨-, t, ht, hvalue, hframe⟩ := additionAndSubtractionComplete _ hs.beforeExecute_registers_length
    rw [hi.getRegister_r0_beforeExecute, hi.getRegister_r1_beforeExecute] at hvalue
    obtain ⟨hrun, hflag, hrest⟩ := hi.cycle_of_onlyRegistersWritten ht hframe (by decide) (by decide)
    exact ⟨_, hrun, hflag, hvalue, hrest⟩

/-- Settles O37: each register holds a value that the other can. -/
theorem swapCycle : Obligations.SwapCycle := by
  unfold Obligations.SwapCycle
  intro s hs
  have hi : InstrAtIP .swap s := .oneCell hs rfl
  obtain ⟨t, ht, hr0, hr1, hframe⟩ := swapCompletes _ hs.beforeExecute_registers_length
  rw [hi.getRegister_r1_beforeExecute, hs.getRegister_mod] at hr0
  rw [hi.getRegister_r0_beforeExecute, hs.getRegister_mod] at hr1
  obtain ⟨hrun, hflag, hrest⟩ := hi.cycle_of_onlyRegistersWritten ht hframe (by decide) (by decide)
  exact ⟨_, hrun, hflag, hr0, hr1, hrest⟩

/-- Settles O38: the effect overwrites the IP of `increment`. -/
theorem jmpCycle : Obligations.JmpCycle := by
  unfold Obligations.JmpCycle
  intro s hs
  have hi : InstrAtIP (.jmp _) s := .twoCells hs rfl
  obtain ⟨⟨t, ht, hip, hregs, hmem, hflag, hpos⟩, -⟩ := jumpsComplete _ _ hs.beforeExecute_registers_length
  exact ⟨_, hi.run ht, hflag.trans hs.running, hip.trans (hs.getMemory_mod _), hmem,
    hi.cycleOf hregs hpos (by decide) (by decide)⟩

/-- Settles O39: not taken, IP is where `increment` left it. -/
theorem jzCycle : Obligations.JzCycle := by
  unfold Obligations.JzCycle
  intro s hs
  have hi : InstrAtIP (.jz _) s := .twoCells hs rfl
  obtain ⟨-, t, ht, hip, hregs, hmem, hflag, hpos⟩ := jumpsComplete _ _ hs.beforeExecute_registers_length
  rw [hi.getRegister_r0_beforeExecute, hs.getMemory_mod, hi.getRegister_beforeExecute regIP] at hip
  exact ⟨_, hi.run ht, hflag.trans hs.running, hip, hmem, hi.cycleOf hregs hpos (by decide) (by decide)⟩

end Sys2Proof.Machine

/-! PROOF. The family of spec/60_exceptions.md: the engine's one abnormal event, the unresolved opcode, and the halt it ends in
(R171). -/

namespace Sys2Proof.Machine

section Support

variable {P : Type} {e : Engine P} {s : State P}

/-- R131, R132: two steps of the default pipeline make the state before `execute`, resolved opcode or not. -/
theorem engineSteps_two (hd : e.pipeline = none) (hr : s.isHalted = false) (hp : s.pipelineStep = 0) :
    engineSteps e 2 s = .next (beforeExecute e.config s) := by
  have hfetch := engineStep_fetch hd hr hp
  have hincrement : engineStep e (advancePipeline 3 (fetch e.config s)) = .next (beforeExecute e.config s) :=
    engineStep_increment hd hr (by simp [hp])
  rw [engineSteps_succ_of_engineStep hfetch, engineSteps_succ_of_engineStep hincrement, engineSteps]

/-- R171: under UNRESOLVED_EXECUTE = Halt the abnormal event sets the halt flag. -/
theorem unresolvedHalt_of_halt {c : Config} (hv : c.unresolvedExecute = .halt) (s : State P) :
    unresolvedHalt c s = setHalt s := by
  simp only [unresolvedHalt, hv]

end Support

/-! ### The statement -/

/-- Settles O18: the first two phases leave the evidence in IS and IP, and the third writes the halt flag alone. -/
theorem unresolvedOpcodeHaltsTheMachine : Obligations.UnresolvedOpcodeHaltsTheMachine := by
  unfold Obligations.UnresolvedOpcodeHaltsTheMachine
  intro P e s op hw hd hv hi hr hp hop hl
  obtain rfl : op = fetchedOpcode e.config s := hop.trans (fetchedOpcode_eq_mod e.config s).symm
  have hsteps := engineSteps_of_unresolved hw.config hd hi.registerCount hr hp hl
  rw [unresolvedHalt_of_halt hv] at hsteps
  refine ⟨⟨_, engineSteps_two hd hr hp, hr⟩, _, hsteps, rfl, getRegister_is_beforeExecute hw.config hi.registerCount,
    getRegister_ip_beforeExecute_of_unresolved hw.config hi.registerCount hl, .beforeExecute hw.config hi.registerCount,
    getMemory_beforeExecute e.config e.config s, rfl, ?phase, ?counted⟩
  case phase => simp [beforeExecute_pipelineStep hp]
  case counted => simp [beforeExecute_pipelineStep hp, beforeExecute_executionStep hp]

end Sys2Proof.Machine

/-! PROOF. The family of spec/70_reset_and_hazards.md: the state that `newState` and `reset` build (R190, R191), the bulk loads
(R193 to R195), and host writes between the phases of an instruction (R206). -/

namespace Sys2Proof.Machine

section Support

variable {P : Type} {c : Config} {e : Engine P} {s : State P} {values : List Int}

/-! ### The state after `newState` -/

/-- R33: every cell is 0. -/
@[simp] theorem getMemory_freshState (e : Engine P) (c : Config) (a : Int) : getMemory c a (freshState e) = 0 := rfl

/-- R33: every register is 0. -/
@[simp] theorem getRegister_freshState (e : Engine P) (c : Config) (r : Register c) : getRegister c r (freshState e) = 0 := by
  simp [getRegister, freshState]

/-- R33: as many registers as the configuration names. -/
@[simp] theorem freshState_registers_length (e : Engine P) :
    (freshState e).registers.length = e.config.registerNames.length :=
  List.length_replicate

/-- R191: `reset` builds what `newState` builds, whatever the state before it. -/
theorem resetState_of_wellFormed [Decidable e.WellFormed] (hw : e.WellFormed) (s : State P) :
    resetState e s = .next (freshState e) :=
  newState_of_wellFormed hw

/-! ### `bulkLoadMemory` -/

/-- R193: a list that fits is loaded. -/
theorem bulkLoadMemory_of_le (hl : values.length ≤ c.numMemoryAddresses) (s : State P) :
    bulkLoadMemory c values s = .next { s with memory := Memory.ofValues c.memoryBitWidth 0 values } :=
  if_pos hl

/-- R194, D14: a longer one is refused. -/
theorem bulkLoadMemory_of_lt (hl : c.numMemoryAddresses < values.length) (s : State P) :
    bulkLoadMemory c values s = .refused .tooManyMemoryValues :=
  if_neg (Nat.not_le_of_lt hl)

/-- R193: an address of the memory names the value at that position of the list, and 0 past its end. -/
theorem getMemory_ofValues_cast {a : Nat} (ha : a < c.numMemoryAddresses) {t : State P}
    (ht : t.memory = Memory.ofValues c.memoryBitWidth 0 values) :
    (getMemory c a t : Int) = if a < values.length then values.getD a 0 % 2 ^ c.memoryBitWidth else 0 := by
  have haddress : constrainAddress c.numMemoryAddresses a = a :=
    (constrainAddress_natCast _ a).trans (Nat.mod_eq_of_lt ha)
  rw [getMemory, haddress, ht, Memory.read_ofValues, Nat.cast_ite, constrainMemoryValue_cast]
  simp

/-! ### `bulkLoadRegisters` -/

/-- R195, R201 H3: the host's duty, by the positions of the list. -/
def RegisterDuty (c : Config) (values : List Int) : Prop :=
  values.length ≤ c.registerNames.length
    ∧ (∀ i : Nat, i < values.length → 0 ≤ values.getD i 0 ∧ values.getD i 0 < 2 ^ c.registerBitWidth)
    ∧ (c.ip.val < values.length → values.getD c.ip.val 0 < (c.numMemoryAddresses : Int))

/-- The values of a list, by position. -/
theorem forall_mem_iff_getD {p : Int → Prop} : (∀ v ∈ values, p v) ↔ ∀ i : Nat, i < values.length → p (values.getD i 0) := by
  rw [List.forall_mem_iff_forall_getElem]
  refine forall₂_congr fun i hi => ?_
  rw [List.getD_eq_getElem values 0 hi]

/-- The value at one position of a list, where the list reaches it. -/
theorem forall_getElem?_iff_getD {p : Int → Prop} {i : Nat} :
    (∀ v : Int, values[i]? = some v → p v) ↔ (i < values.length → p (values.getD i 0)) := by
  by_cases hi : i < values.length <;> simp [hi]

/-- R195: the model's check, value by value, is the duty by position. -/
theorem registerDutyFrom_zero_iff :
    registerDutyFrom c 0 values = true ↔
      (∀ i : Nat, i < values.length → 0 ≤ values.getD i 0 ∧ values.getD i 0 < 2 ^ c.registerBitWidth)
      ∧ (c.ip.val < values.length → values.getD c.ip.val 0 < (c.numMemoryAddresses : Int)) := by
  have hip := forall_getElem?_iff_getD (values := values) (p := (· < (c.numMemoryAddresses : Int))) (i := c.ip.val)
  rw [registerDutyFrom_iff, forall_mem_iff_getD, ← hip]
  refine and_congr_right fun _ => ⟨fun h v => h c.ip.val v (Nat.zero_add _), fun h j v hj => ?_⟩
  obtain rfl : j = c.ip.val := (Nat.zero_add j).symm.trans hj
  exact h v

/-- R195, D15: what `bulkLoadRegisters` asks before it stores anything. -/
theorem bulkLoadRegisters_check_iff :
    (decide (values.length ≤ c.registerNames.length) && registerDutyFrom c 0 values) = true ↔ RegisterDuty c values := by
  rw [Bool.and_eq_true, decide_eq_true_eq, registerDutyFrom_zero_iff, RegisterDuty]

theorem bulkLoadRegisters_of_duty (hd : RegisterDuty c values) (s : State P) :
    bulkLoadRegisters c values s = .next { s with
      registers := values.map Int.toNat ++ List.replicate (c.registerNames.length - values.length) 0 } :=
  if_pos (bulkLoadRegisters_check_iff.mpr hd)

theorem bulkLoadRegisters_of_not_duty (hd : ¬ RegisterDuty c values) (s : State P) :
    bulkLoadRegisters c values s = .refused .registerValuesOutOfDuty :=
  if_neg (bulkLoadRegisters_check_iff.not.mpr hd)

/-- R195: the duty leaves nothing negative, past the list either. -/
theorem RegisterDuty.getD_nonneg (hd : RegisterDuty c values) (i : Nat) : 0 ≤ values.getD i 0 := by
  obtain ⟨-, hrange, -⟩ := hd
  rcases Nat.lt_or_ge i values.length with hi | hi
  · exact (hrange i hi).1
  · exact (List.getD_eq_default values 0 hi).ge

/-- R195: so the registers hold the values themselves. -/
theorem RegisterDuty.getRegister_cast (hd : RegisterDuty c values) (r : Register c) {t : State P} {k : Nat}
    (ht : t.registers = values.map Int.toNat ++ List.replicate k 0) :
    (getRegister c r t : Int) = values.getD r.val 0 := by
  rw [getRegister, ht, getD_map_toNat_append_replicate, Int.toNat_of_nonneg (hd.getD_nonneg r.val)]

/-- R195: the list and the zeros are exactly the registers. -/
theorem RegisterDuty.registers_length (hd : RegisterDuty c values) :
    (values.map Int.toNat ++ List.replicate (c.registerNames.length - values.length) 0).length = c.registerNames.length := by
  obtain ⟨hl, -, -⟩ := hd
  rw [List.length_append, List.length_map, List.length_replicate, Nat.add_sub_of_le hl]

end Support

/-! ### Host writes between the phases of an instruction of REF8 -/

section Ref8

variable {op : Nat} {s u t : State} {h : InstructionHeader}

/-- R206: a running REF8 machine after the `fetch` of an instruction and before its `increment`, the opcode `op` in IS. -/
structure AfterFetch (op : Nat) (u : State) : Prop where
  /-- I6 -/
  registerCount : u.registers.length = ref8.registerNames.length
  /-- R141 -/
  running : u.isHalted = false
  /-- R29: the next phase is `increment` -/
  phase : u.pipelineStep = 1
  /-- R27 -/
  is : getRegister ref8 regIS u = op

/-- R131: the first step of a cycle gets there. -/
theorem AtOpcode.afterFetch (hs : AtOpcode op s) : AfterFetch op (advancePipeline 3 (fetch ref8 s)) where
  registerCount := (fetch_registers_length ref8 s).trans hs.registerCount
  running := hs.running
  phase := by simp [hs.start]
  is := by
    rw [getRegister_advancePipeline, getRegister_fetch_of_wellFormed ref8_wellFormed hs.registerCount, ref8_is, if_pos rfl,
      hs.fetchedOpcode_eq]

/-- R131: `fetch` does not move IP. -/
theorem AtOpcode.getRegister_ip_fetch (hs : AtOpcode op s) :
    getRegister ref8 regIP (fetch ref8 s) = getRegister ref8 regIP s := by
  rw [getRegister_fetch_of_wellFormed ref8_wellFormed hs.registerCount, ref8_is, if_neg (by decide)]

/-- R134: one step of the host from an instruction of REF8 is its `fetch`. -/
theorem AtOpcode.run_fetch (hs : AtOpcode op s) :
    Host.Core.run Sys2Proof.core 1 s = .next (advancePipeline 3 (fetch ref8 s)) :=
  run_then_fetch (k := 0) rfl hs.running hs.start

/-- R206: a host write to a cell, the opcode cell too, leaves the fetched opcode in IS. -/
theorem AfterFetch.setMemory (hu : AfterFetch op u) (a v : Int) : AfterFetch op (setMemory ref8 a v u) :=
  ⟨hu.registerCount, hu.running, hu.phase, hu.is⟩

/-- R132: `increment` keeps the opcode in IS. -/
theorem AfterFetch.getRegister_is_increment (hu : AfterFetch op u) :
    getRegister ref8 regIS (advancePipeline 3 (increment ref8 u)) = op :=
  (Sys2Proof.Machine.getRegister_is_increment ref8_wellFormed u).trans hu.is

/-- R114, R54: the operand that `execute` reads is the cell after the opcode, in the memory of now. -/
theorem AfterFetch.executingOperand_increment (hu : AfterFetch op u) (hl : lookup ref8 op = some h) :
    executingOperand ref8 (advancePipeline 3 (increment ref8 u)) = some (operandAtIP h u) := by
  have his : lookup ref8 (getRegister ref8 ref8.is (advancePipeline 3 (increment ref8 u))) = some h :=
    (congrArg (lookup ref8) hu.getRegister_is_increment).trans hl
  have harg : getArgument ref8 1 (advancePipeline 3 (increment ref8 u))
      = some (getMemory ref8 ((getRegister ref8 regIP u : Int) + 1) u) :=
    getArgument_increment_of_dvd ref8_wellFormed hu.registerCount ((congrArg (lookup ref8) hu.is).trans hl) (by decide) 1
  simp only [executingOperand, his, harg, operandAtIP]
  split <;> rfl

/-- R133: what is left of the cycle after `fetch` runs the meaning of the opcode in IS with the operand cell of now. -/
theorem AfterFetch.run {i : Instr} (hu : AfterFetch op u) (hl : lookup ref8 op = some h)
    (hi : instrOf op (operandAtIP h u) = some i) (ht : exec i (advancePipeline 3 (increment ref8 u)) = .next t) :
    Host.Core.run Sys2Proof.core 2 u = .next (advancePipeline 3 t) := by
  have his : getRegister ref8Engine.config ref8Engine.config.is (advancePipeline 3 (increment ref8 u)) = op :=
    hu.getRegister_is_increment
  have hexecute : execute ref8Engine (advancePipeline 3 (increment ref8 u)) = .next t := by
    rw [execute_of_lookup_eq_some (h := h) (his.symm ▸ hl), his, effect_ref8Engine hl]
    simp only [ref8Effect, hu.executingOperand_increment hl, hi, ht]
  have hincrement : engineStep ref8Engine u = .next (advancePipeline 3 (increment ref8 u)) :=
    engineStep_increment rfl hu.running hu.phase
  have hlast : engineStep ref8Engine (advancePipeline 3 (increment ref8 u)) = .next (advancePipeline 3 t) :=
    engineStep_execute rfl hu.running (by simp [hu.phase]) hexecute
  rw [core_run_eq_engineSteps, engineSteps_succ_of_engineStep hincrement, engineSteps_succ_of_engineStep hlast]
  rfl

theorem lookup_ref8_ldr0 : lookup ref8 17 = some ⟨"R0 from operand", 2, some "LDR0"⟩ := rfl

/-- R153: after the `fetch` of an LDR0, two steps put the operand cell of now into R0. -/
theorem AfterFetch.run_ldr0 (hu : AfterFetch 17 u) :
    ∃ t : State, Host.Core.run Sys2Proof.core 2 u = .next t
      ∧ getRegister ref8 regR0 t = getMemory ref8 ((getRegister ref8 regIP u : Int) + 1) u % 256 := by
  have hr : (advancePipeline 3 (increment ref8 u)).registers.length = 4 :=
    (increment_registers_length ref8 u).trans hu.registerCount
  exact ⟨_, hu.run lookup_ref8_ldr0 rfl (exec_ldr0 _ _), getRegister_setRegister_ref8_natCast hr regR0 _⟩

/-- R206: the same with a host write between, the operand cell read after it. -/
theorem AtOpcode.run_ldr0_after_setMemory (hs : AtOpcode 17 s) (a v : Int) :
    ∃ t : State, Host.Core.run Sys2Proof.core 2 (setMemory ref8 a v (advancePipeline 3 (fetch ref8 s))) = .next t
      ∧ getRegister ref8 regR0 t
        = getMemory ref8 ((getRegister ref8 regIP s : Int) + 1) (setMemory ref8 a v (advancePipeline 3 (fetch ref8 s))) % 256 := by
  have hrun := (hs.afterFetch.setMemory a v).run_ldr0
  rwa [getRegister_setMemory, getRegister_advancePipeline, hs.getRegister_ip_fetch] at hrun

/-- R43: the cell after another is another one, across the top of memory too. -/
theorem add_one_emod_ref8_ne (a : Int) : (a + 1) % (ref8.numMemoryAddresses : Int) ≠ a % (ref8.numMemoryAddresses : Int) := by
  show (a + 1) % 256 ≠ a % 256
  omega

end Ref8

/-! ### The statements -/

/-- Settles O44: the memory is the list's, whatever it was. -/
theorem bulkLoadMemoryOverwritesEveryCell : Obligations.BulkLoadMemoryOverwritesEveryCell := by
  unfold Obligations.BulkLoadMemoryOverwritesEveryCell
  intro P c values s _
  exact ⟨fun hl => ⟨_, bulkLoadMemory_of_le hl s, fun a ha => getMemory_ofValues_cast ha rfl, rfl, rfl, .refl s⟩,
    fun hl => bulkLoadMemory_of_lt hl s⟩

/-- Settles O45: the model's check is the duty, and under the duty no value is negative, so each is stored as it is. -/
theorem bulkLoadRegistersKeepsTheDuty : Obligations.BulkLoadRegistersKeepsTheDuty := by
  unfold Obligations.BulkLoadRegistersKeepsTheDuty
  intro P c values s _
  refine ⟨fun (hd : RegisterDuty c values) => ?loaded, fun hd => bulkLoadRegisters_of_not_duty hd s⟩
  case loaded =>
    exact ⟨_, bulkLoadRegisters_of_duty hd s, fun r => hd.getRegister_cast r rfl, hd.registers_length, rfl, rfl, .refl s⟩

/-- Settles O46: after `fetch` the rest of the cycle reads the operand cell, which the first write reaches and the second, at the
opcode cell, does not. -/
theorem hostWritesBetweenPhasesOfALoad : Obligations.HostWritesBetweenPhasesOfALoad := by
  unfold Obligations.HostWritesBetweenPhasesOfALoad
  intro s v hs
  refine ⟨_, hs.run_fetch, ?operand, ?opcode⟩
  case operand =>
    obtain ⟨t, ht, hr0⟩ := hs.run_ldr0_after_setMemory ((getRegister ref8 regIP s : Int) + 1) v
    refine ⟨t, ht, ?_⟩
    rw [hr0, Int.natCast_emod, getMemory_setMemory_cast (by decide), if_pos rfl]
    exact Int.emod_emod v 256
  case opcode =>
    obtain ⟨t, ht, hr0⟩ := hs.run_ldr0_after_setMemory (getRegister ref8 regIP s) v
    refine ⟨t, ht, ?_⟩
    rw [hr0, SameMemoryExcept.setMemory (by decide) _ _ _ _ (add_one_emod_ref8_ne _)]
    exact hs.getMemory_mod _

/-- Settles O43: both answer `freshState`, whose slots are each peripheral's own. -/
theorem resetReplacesTheWholeState : Obligations.ResetReplacesTheWholeState := by
  unfold Obligations.ResetReplacesTheWholeState
  refine ⟨?state, ?ref8⟩
  case state =>
    intro P e _ s hw
    exact ⟨freshState e, newState_of_wellFormed hw, resetState_of_wellFormed hw s, getMemory_freshState e e.config,
      freshState_registers_length e, getRegister_freshState e e.config, rfl, rfl, rfl, e.peripherals.slot?_fresh⟩
  case ref8 =>
    intro _ hw
    rw [reset_eq_freshState, newState_of_wellFormed hw]

end Sys2Proof.Machine
